-- ==== Sys2Proof/Word.lean ====
section
/-! DEFINITION. The word types of SCP-CORE (spec 10_state.md R32, R36, R45, R46; 00_scope.md R7, R11): every value is
unsigned. A cell of the memory image, of the register file or of the operand stack is one byte; a jump operand is 16 bits
wide. `pc` and `sp` have the widths the largest legal MEMORY_SIZE needs (notes/assumptions 25). -/

namespace Sys2Proof

/-- A byte, the spec's `u8` (00_scope.md R11): one cell of `M`, `S` or the register file. -/
abbrev Byte := BitVec 8

/-- A 16-bit quantity, the spec's `u16`: the operand of JMP and JZ (30_encoding.md R107). -/
abbrev Addr := BitVec 16

/-- What `pc` holds: PC_WIDTH = 16 bits and the 17th that R40 allows a model (10_state.md R36, R40; 92 D5), which MEMORY_SIZE
= 65536 needs to hold MEMORY_SIZE itself and which is 0 under every smaller size. -/
abbrev Pc := BitVec 17

/-- What `sp` holds: the 16 bits that SP_WIDTH is at most (10_state.md R46); above SP_WIDTH they are 0. -/
abbrev Sp := BitVec 16

end Sys2Proof
end

