-- ==== Sys2Proof/Config.lean ====
section
/-! DEFINITION. What is fixed when an instance of the hardware is built (00_scope.md R7, R8): the parameters. And the one free
value of the spec, the contents of the instruction-register latches after INIT and RESET (93 U11). The default values stand
in Machine/Params.lean, the limits in WellFormed.lean. -/

namespace Sys2Proof.Config

/-- The parameter OPCODE_MAP (30_encoding.md R102): one byte for each of the eleven mnemonics. -/
structure OpcodeMap where
  halt : Byte
  load : Byte
  add : Byte
  sub : Byte
  mul : Byte
  div : Byte
  jmp : Byte
  jz : Byte
  push : Byte
  pop : Byte
  print : Byte
  deriving DecidableEq, Repr

/-- A choice of the parameters of 00_scope.md R7. CELL_WIDTH, ADDR_OPERAND_WIDTH and PC_WIDTH are fixed by R7 and stand in
the types `Byte`, `Addr` and `Pc`; STACK_SIZE always equals MEMORY_SIZE. -/
structure Params where
  /-- MEMORY_SIZE: the length of the memory image and of the operand stack. -/
  memorySize : Nat
  /-- NUM_REGISTERS. -/
  numRegisters : Nat
  /-- OPCODE_MAP. -/
  opcodeMap : OpcodeMap
  /-- SP_AFTER_RESET. -/
  spAfterReset : Nat
  deriving DecidableEq, Repr

/-- MEMORY_SIZE - 1: the position of `sp` at which the stack is empty (10_state.md R46). -/
def Params.emptySp (p : Params) : Sp := BitVec.ofNat 16 (p.memorySize - 1)

/-- SP_WIDTH = ceil(log2(MEMORY_SIZE)), at least 1 (00_scope.md R7): the bits of `sp` that are in use. -/
def Params.spWidth (p : Params) : Nat := (p.memorySize - 1).log2 + 1

/-- The contents of a latch that the spec leaves unspecified (10_state.md R50, R52; 93 U11 "any value"): the n-th
value drawn. It has no body, so nothing can be proved about it. -/
opaque freeLatch : Nat → Byte

end Sys2Proof.Config
end

