-- ==== Sys2Proof/Syntax.lean ====
section
/-! DEFINITION. The instruction set: the closed list of eleven instructions of 30_encoding.md R102, one constructor for
each row of spec/opcode_table.json, and their mnemonics. There are no pseudo-instructions (R122). -/

namespace Sys2Proof

/-- The eleven mnemonics, in the order of 30_encoding.md R102. -/
inductive Mnemonic where
  | halt | load | add | sub | mul | div | jmp | jz | push | pop | print
  deriving DecidableEq, Repr

/-- Every mnemonic, in the order of 30_encoding.md R102. -/
def Mnemonic.all : List Mnemonic :=
  [.halt, .load, .add, .sub, .mul, .div, .jmp, .jz, .push, .pop, .print]

/-- An instruction. A register operand is the raw index byte of the encoding, any value 0 to 255 (30_encoding.md R105):
an index that names no register is no decode error. An address operand is the 16-bit number `(addrHi << 8) | addrLo`
(R107), any value. -/
inductive Instr where
  /-- HALT (40_execute_loop.md R140). -/
  | halt
  /-- LOAD reg, value (41_load_arith_print.md R161). -/
  | load (reg value : Byte)
  /-- ADD regA, regB, regDst (R163). -/
  | add (regA regB regDst : Byte)
  /-- SUB regA, regB, regDst (R164). -/
  | sub (regA regB regDst : Byte)
  /-- MUL regA, regB, regDst (R165). -/
  | mul (regA regB regDst : Byte)
  /-- DIV regA, regB, regDst (R166). -/
  | div (regA regB regDst : Byte)
  /-- JMP addr (42_control_flow.md R201). -/
  | jmp (address : Addr)
  /-- JZ reg, addr (R205). -/
  | jz (reg : Byte) (address : Addr)
  /-- PUSH reg (43_stack.md R231). -/
  | push (reg : Byte)
  /-- POP reg (R232). -/
  | pop (reg : Byte)
  /-- PRINT reg (41_load_arith_print.md R167). -/
  | print (reg : Byte)
  deriving DecidableEq, Repr

/-- The mnemonic of an instruction. -/
def Instr.mnemonic : Instr → Mnemonic
  | .halt => .halt
  | .load _ _ => .load
  | .add _ _ _ => .add
  | .sub _ _ _ => .sub
  | .mul _ _ _ => .mul
  | .div _ _ _ => .div
  | .jmp _ => .jmp
  | .jz _ _ => .jz
  | .push _ => .push
  | .pop _ => .pop
  | .print _ => .print

end Sys2Proof
end

