-- ==== Sys2Proof/WellFormed.lean ====
section
/-! DEFINITION. The static checks. `Instr.wf`: every operand of the instruction names something that exists in an instance
with the given parameters (the checks `checkReg` of 41_load_arith_print.md R160 and `checkAddr` of 42_control_flow.md R200,
which depend on the operand bytes alone). An instruction that fails it still encodes, decodes and RUNS: it takes the bounds
fault the spec names. `Params.wf`: the parameter limits of 00_scope.md R7; a choice that fails it is refused (93 U13). -/

namespace Sys2Proof

/-- The index names one of the NUM_REGISTERS registers (R160). -/
def regInRange (p : Config.Params) (i : Byte) : Bool := decide (i.toNat < p.numRegisters)

/-- The address lies in the memory image (R200). -/
def addrInRange (p : Config.Params) (t : Addr) : Bool := decide (t.toNat < p.memorySize)

/-- Every operand of the instruction is in range. -/
def Instr.wf (p : Config.Params) : Instr → Bool
  | .halt => true
  | .load reg _ => regInRange p reg
  | .add a b d => regInRange p a && regInRange p b && regInRange p d
  | .sub a b d => regInRange p a && regInRange p b && regInRange p d
  | .mul a b d => regInRange p a && regInRange p b && regInRange p d
  | .div a b d => regInRange p a && regInRange p b && regInRange p d
  | .jmp t => addrInRange p t
  | .jz reg t => regInRange p reg && addrInRange p t
  | .push reg => regInRange p reg
  | .pop reg => regInRange p reg
  | .print reg => regInRange p reg

/-- The bytes of an opcode map, in the order of `Mnemonic.all`. -/
def Config.OpcodeMap.codes (m : Config.OpcodeMap) : List Byte :=
  [m.halt, m.load, m.add, m.sub, m.mul, m.div, m.jmp, m.jz, m.push, m.pop, m.print]

/-- The map is injective (R7, R102): the only property a claim may assume of it. -/
def Config.OpcodeMap.wf (m : Config.OpcodeMap) : Bool := decide m.codes.Nodup

/-- The limits of 00_scope.md R7. -/
def Config.Params.wf (p : Config.Params) : Bool :=
  decide (1 ≤ p.memorySize) && decide (p.memorySize ≤ 65536) &&
  decide (1 ≤ p.numRegisters) && decide (p.numRegisters ≤ 256) &&
  p.opcodeMap.wf &&
  (decide (p.spAfterReset = p.memorySize - 1) || decide (p.spAfterReset = 0))

end Sys2Proof
end

