-- ==== Sys2Proof/Decode.lean ====
section
/-! DEFINITION. The encoding (30_encoding.md). First the decoder, total on any bytes and rejecting by name: the
opcode_dispatcher (R109), the operand counts (R104) and the assembly of an instruction from its operand bytes (R101,
R105 to R107). After it the encoder, written from the format table of R101. Both take OPCODE_MAP as a parameter (R102:
"A model must treat the numbers as a parameter"); `decode` and `encode` use the default map. -/

namespace Sys2Proof

/-- The default OPCODE_MAP (30_encoding.md R102; 92 D1). -/
def opcodeMap : Config.OpcodeMap where
  halt := 0x00
  load := 0x01
  add := 0x02
  sub := 0x03
  mul := 0x04
  div := 0x05
  jmp := 0x06
  jz := 0x07
  push := 0x08
  pop := 0x09
  print := 0x0A

/-- OPCODE_MAP(m). -/
def Config.OpcodeMap.code (map : Config.OpcodeMap) : Mnemonic → Byte
  | .halt => map.halt
  | .load => map.load
  | .add => map.add
  | .sub => map.sub
  | .mul => map.mul
  | .div => map.div
  | .jmp => map.jmp
  | .jz => map.jz
  | .push => map.push
  | .pop => map.pop
  | .print => map.print

/-- The operand count n(m) (30_encoding.md R104). -/
def operandCount : Mnemonic → Nat
  | .halt => 0
  | .load => 2
  | .add => 3
  | .sub => 3
  | .mul => 3
  | .div => 3
  | .jmp => 2
  | .jz => 3
  | .push => 1
  | .pop => 1
  | .print => 1

/-- The length in bytes, 1 + n(m) (30_encoding.md R104). -/
def instrLength (m : Mnemonic) : Nat := 1 + operandCount m

/-- The opcode_dispatcher (30_encoding.md R109): the mnemonic whose opcode the byte is, with its operand count; none for
a byte that OPCODE_MAP does not assign (R110). -/
def dispatch (map : Config.OpcodeMap) (op : Byte) : Option (Mnemonic × Nat) :=
  match Mnemonic.all.find? (fun m => map.code m == op) with
  | some m => some (m, operandCount m)
  | none => none

/-- The big-endian address operand of JMP and JZ (42_control_flow.md R200; 30_encoding.md R107). -/
def address (hi lo : Byte) : Addr := (hi.setWidth 16 <<< 8) ||| lo.setWidth 16

/-- addrHi, the more significant byte of an address. -/
def addrHi (t : Addr) : Byte := (t >>> 8).setWidth 8

/-- addrLo, the less significant byte of an address. -/
def addrLo (t : Addr) : Byte := t.setWidth 8

/-- The instruction with the given mnemonic and operand bytes, in encoding order (30_encoding.md R101). A mnemonic with
fewer than three operands ignores the rest. -/
def instrOf (m : Mnemonic) (b1 b2 b3 : Byte) : Instr :=
  match m with
  | .halt => .halt
  | .load => .load b1 b2
  | .add => .add b1 b2 b3
  | .sub => .sub b1 b2 b3
  | .mul => .mul b1 b2 b3
  | .div => .div b1 b2 b3
  | .jmp => .jmp (address b1 b2)
  | .jz => .jz b1 (address b2 b3)
  | .push => .push b1
  | .pop => .pop b1
  | .print => .print b1

/-- Why a byte list is no instruction. -/
inductive DecodeError where
  /-- There is no opcode byte. -/
  | noOpcode
  /-- The opcode byte is not in OPCODE_MAP (30_encoding.md R110). -/
  | illegalOpcode (op : Byte)
  /-- The list ends before the last operand byte (40_execute_loop.md R135). -/
  | truncated (m : Mnemonic)
  deriving DecidableEq, Repr

/-- The decoder under a given OPCODE_MAP (30_encoding.md R108): the instruction at the head of the list and the bytes
after it. An illegal opcode is rejected before any operand byte is looked at. -/
def decodeWith (map : Config.OpcodeMap) : List Byte → Except DecodeError (Instr × List Byte)
  | [] => .error .noOpcode
  | op :: rest =>
    match dispatch map op with
    | none => .error (.illegalOpcode op)
    | some (m, n) =>
      match n, rest with
      | 0, bs => .ok (instrOf m 0 0 0, bs)
      | 1, b1 :: bs => .ok (instrOf m b1 0 0, bs)
      | 2, b1 :: b2 :: bs => .ok (instrOf m b1 b2 0, bs)
      | 3, b1 :: b2 :: b3 :: bs => .ok (instrOf m b1 b2 b3, bs)
      | _, _ => .error (.truncated m)

/-- The decoder under the default OPCODE_MAP. -/
def decode (bytes : List Byte) : Except DecodeError (Instr × List Byte) := decodeWith opcodeMap bytes

/-- The encoder under a given OPCODE_MAP: the bytes of an instruction in memory order (30_encoding.md R101, R102, R121). -/
def encodeWith (map : Config.OpcodeMap) : Instr → List Byte
  | .halt => [map.halt]
  | .load reg value => [map.load, reg, value]
  | .add a b d => [map.add, a, b, d]
  | .sub a b d => [map.sub, a, b, d]
  | .mul a b d => [map.mul, a, b, d]
  | .div a b d => [map.div, a, b, d]
  | .jmp t => [map.jmp, addrHi t, addrLo t]
  | .jz reg t => [map.jz, reg, addrHi t, addrLo t]
  | .push reg => [map.push, reg]
  | .pop reg => [map.pop, reg]
  | .print reg => [map.print, reg]

/-- The encoder under the default OPCODE_MAP. -/
def encode (i : Instr) : List Byte := encodeWith opcodeMap i

/-- The length of the longest instruction (30_encoding.md R100). -/
def longestInstr : Nat := 4

/-- The bytes, in memory order, of an instruction given as the number W of spec/opcode_table.json: byte 0 is the most
significant byte of the `nbits`-bit number (30_encoding.md R101), and every byte after the last is 0, up to the longest
instruction. -/
def tableBytes (nbits w : Nat) : List Byte :=
  (List.range longestInstr).map fun k =>
    if k < nbits / 8 then BitVec.ofNat 8 (w >>> (8 * (nbits / 8 - 1 - k))) else 0

/-- The instruction the decoder reads from an instruction whose bits are `w`, numbered as spec/opcode_table.json numbers
them. -/
def decodeTableWord (nbits w : Nat) : Option Instr :=
  match decode (tableBytes nbits w) with
  | .ok (i, _) => some i
  | .error _ => none

end Sys2Proof
end

