-- ==== Sys2Proof/Machine/Params.lean ====
section
/-! DEFINITION. The default parameters of 00_scope.md R7, "the values this hardware takes". -/

namespace Sys2Proof.Machine

/-- The default parameters. MEMORY_SIZE 256, NUM_REGISTERS 8, the default OPCODE_MAP (92 D1), and SP_AFTER_RESET =
MEMORY_SIZE-1 (92 D10; 90 C2). -/
def defaultParams : Config.Params where
  memorySize := 256
  numRegisters := 8
  opcodeMap := opcodeMap
  spAfterReset := 255

end Sys2Proof.Machine
end

