-- ==== Sys2Proof/Machine/State.lean ====
section
/-! DEFINITION. The state of SCP-CORE as plain data (10_state.md R30 to R53): the six architectural fields of R30, the
instruction_register latches (R50), the fault record (R51), the sequencer's position between two instructions
(40_execute_loop.md R144), the diagnostic output channel (60_exceptions.md R280), the host's side of the interface
(R290): the commands it has still to issue and the results it has been given; a counter for the one free value of the spec
(93 U11); and the parameters the instance was built with (00_scope.md R7, R8), which no step changes. Then the ways a step
can stop and the state after reset. -/

namespace Sys2Proof.Machine

/-- Byte-addressed storage, `M` or `S`, in canonical form: addresses strictly rising, no entry equal to 0, which is what
an unlisted address reads as (10_state.md R52: INIT and RESET zero every cell). -/
abbrev Memory := List Host.Cell

/-- The five fault causes (60_exceptions.md R261). -/
inductive Cause where
  | capacity | bounds | arithmetic | stack | decode
  deriving DecidableEq, Repr

/-- The nine fault subcauses (60_exceptions.md R261). -/
inductive Subcause where
  /-- host LOAD longer than MEMORY_SIZE (R263). -/
  | programTooLong
  /-- opcode fetch at `pc >= MEMORY_SIZE` (R264). -/
  | fetchOpcode
  /-- operand fetch at `pc >= MEMORY_SIZE` (R264). -/
  | fetchOperand
  /-- a register operand `>= NUM_REGISTERS` (R264). -/
  | registerIndex
  /-- a JMP or JZ target `>= MEMORY_SIZE` (R264). -/
  | jumpAddress
  /-- DIV by a register that holds 0 (R266). -/
  | divideByZero
  /-- PUSH at `sp = 0` (R267; the source's name, R235). -/
  | stackUnderflow
  /-- POP at `sp >= MEMORY_SIZE-1` (R267; the source's name, R235). -/
  | stackOverflow
  /-- an opcode byte not in OPCODE_MAP (R265). -/
  | illegalOpcode
  deriving DecidableEq, Repr

/-- A fault record `(cause, subcause, at, value)` (60_exceptions.md R262). The cause is a function of the subcause (R261)
and is computed from it (`FaultRecord.cause`). `atPc` is the spec's `at`, absent for CAPACITY. `value` is a plain number:
for CAPACITY it is the length of a program, which no word bounds. -/
structure FaultRecord where
  subcause : Subcause
  atPc : Option Pc
  value : Nat
  deriving DecidableEq, Repr

/-- An event of the diagnostic output channel (60_exceptions.md R280). -/
inductive Event where
  /-- `Print(v)`, emitted by PRINT. -/
  | print (v : Byte)
  /-- `Fault(cause, subcause, at, value)`, emitted by every fault and by a refused LOAD. -/
  | fault (r : FaultRecord)
  deriving DecidableEq, Repr

/-- The instruction_register latches (10_state.md R50). -/
structure InstrReg where
  op : Byte
  b1 : Byte
  b2 : Byte
  b3 : Byte
  deriving DecidableEq, Repr

/-- Where the sequencer stands between two transitions (40_execute_loop.md R144): only entering IDLE or FETCH_OP is
architectural. FETCH_OP means an EXECUTE is in progress. -/
inductive Sequencer where
  | idle
  | fetchOp
  deriving DecidableEq, Repr

/-- The four host commands (60_exceptions.md R290). -/
inductive HostCommand where
  | init
  | load (program : List Byte)
  | execute
  | reset
  deriving DecidableEq, Repr

/-- A result given to the host (60_exceptions.md R290): LOAD's `ok` or `refused`, and EXECUTE's return. INIT and RESET
give none. -/
inductive Reply where
  | loadOk
  | loadRefused
  | executeReturned
  deriving DecidableEq, Repr

/-- The state. The field names are the spec's (00_scope.md R12) where it has one. -/
structure State where
  /-- the parameters the instance was built with (00_scope.md R7, R8; the model's own field, notes/assumptions 1). -/
  params : Config.Params
  /-- `M`, the memory image (R30, R49). -/
  mem : Memory
  /-- `x`, the register file: NUM_REGISTERS cells (R30, R32). -/
  regs : List Byte
  /-- `S`, the operand stack (R30, R45). -/
  stack : Memory
  /-- `pc` (R30, R36). -/
  pc : Pc
  /-- `sp`, of SP_WIDTH bits (R30, R46). -/
  sp : Sp
  /-- `running`, the only status flag (R30, R41). -/
  running : Bool
  /-- the fault record, none or a record (R51). -/
  fault : Option FaultRecord
  /-- the instruction_register (R50). -/
  ir : InstrReg
  /-- the sequencer (R144). -/
  seq : Sequencer
  /-- the diagnostic output channel, oldest event first (R280). -/
  out : List Event
  /-- the commands the host has still to issue, the next one first (R290, R291; the model's own field). -/
  commands : List HostCommand
  /-- the results the host has been given, oldest first (R290; the model's own field). -/
  replies : List Reply
  /-- how many free values have been drawn (93 U11; the model's own field). -/
  draws : Nat
  deriving DecidableEq, Repr

/-- Why a step ends in `Host.Outcome.fault`. There is NO such reason, so the type has no constructor: every fault of the
spec (60_exceptions.md R261) is a transition whose state afterwards the spec gives (R270), so it is a NEXT state, made by
`State.raiseFault`. -/
inductive Fault where
  deriving DecidableEq, Repr

/-- Why a step or a host move is refused. -/
inductive Refusal where
  /-- An instruction without a meaning, rejected by name in `exec`'s arm. Safe. No arm of this model raises it. -/
  | notModelled (mnemonic : String)
  /-- A host command while an EXECUTE is in progress (60_exceptions.md R291, 93 U1 and U15: the spec itself refuses it).
  Raised by `issue`, never by a meaning. Safe: the spec gives the case no behaviour. -/
  | commandDuringExecute
  /-- An instance asked for with parameters outside the limits of 00_scope.md R7 (93 U13: the spec itself refuses it).
  Raised by `build`, never by a step. Safe: the spec gives the case no behaviour. -/
  | illFormedParameters
  deriving DecidableEq, Repr

/-- An instance with the given parameters right after power-on reset: the column "after INIT" of 10_state.md R52, with the
sequencer in IDLE, an empty diagnostic channel and no host command pending. The latches, which R52 leaves unspecified, hold 0
and the draw counter stands at 0 (DESIGN CHOICE, notes/assumptions 9 and 10). -/
def State.fresh (p : Config.Params) : State where
  params := p
  mem := []
  regs := List.replicate p.numRegisters 0
  stack := []
  pc := 0
  sp := p.emptySp
  running := false
  fault := none
  ir := ⟨0, 0, 0, 0⟩
  seq := .idle
  out := []
  commands := []
  replies := []
  draws := 0

/-- The machine right after power-on reset, with the default parameters. -/
def State.reset : State := State.fresh defaultParams

end Sys2Proof.Machine
end

