-- ==== Sys2Proof/Machine/Alu.lean ====
section
/-! DEFINITION. The alu_unit (00_scope.md R23; 41_load_arith_print.md R162, R168; 42_control_flow.md R206): a function of
its inputs, with no state and no flags. -/

namespace Sys2Proof.Machine

/-- The operations of the alu_unit (R23). -/
inductive AluOp where
  | add | sub | mul | div | zero
  deriving DecidableEq, Repr

/-- The output `y`. `none` is the case in which there is no `y` and the output `dz` is 1: DIV by 0 (R162, R168). ADD, SUB
and MUL keep the exact integer result modulo 256; DIV truncates; ZERO gives 1 if `a = 0` and 0 otherwise. -/
def alu (op : AluOp) (a b : Byte) : Option Byte :=
  match op with
  | .add => some (a + b)
  | .sub => some (a - b)
  | .mul => some (a * b)
  | .div => if b = 0 then none else some (a / b)
  | .zero => some (if a = 0 then 1 else 0)

/-- The output `dz`, the division-by-zero indication (R23, R168). -/
def aluDz (op : AluOp) (b : Byte) : Bool := decide (op = .div) && decide (b = 0)

end Sys2Proof.Machine
end

