-- ==== Sys2Proof/Machine/Flags.lean ====
section
/-! DEFINITION. The flags. `running` is the only status flag: there are no condition codes, and arithmetic sets nothing
(10_state.md R41; 41_load_arith_print.md R162). So the only flag operations the spec gives are setting `running` (host
LOAD) and clearing it (HALT, every fault) (10_state.md R42). INIT and RESET clear it with the rest of the state. -/

namespace Sys2Proof.Machine

/-- `running <- true` (R42: a successful host LOAD). -/
def State.setRunning (s : State) : State := { s with running := true }

/-- `running <- false` (R42: HALT and every fault). -/
def State.clearRunning (s : State) : State := { s with running := false }

end Sys2Proof.Machine
end

