-- ==== Sys2Proof/Machine/Ops.lean ====
section
/-! DEFINITION. The named operations over memory and registers, one group for each sub-unit of 00_scope.md R18 to R24, and
taking a fault, the hardware's only exception, as one shared operation. -/

namespace Sys2Proof.Machine

/-! ### Byte-addressed storage (20_memory.md R70) -/

/-- What a cell that is not listed holds: 0, the value INIT and RESET give every cell (10_state.md R52). -/
def unlistedByte : Byte := 0

/-- The byte at an address. -/
def Memory.read : Memory → Nat → Byte
  | [], _ => unlistedByte
  | (b, w) :: rest, a => if b = a then w else Memory.read rest a

/-- The storage with one byte written; the canonical form is kept. -/
def Memory.write : Memory → Nat → Byte → Memory
  | [], a, v => if v = unlistedByte then [] else [(a, v)]
  | (b, w) :: rest, a, v =>
    if a < b then (if v = unlistedByte then (b, w) :: rest else (a, v) :: (b, w) :: rest)
    else if a = b then (if v = unlistedByte then rest else (a, v) :: rest)
    else (b, w) :: Memory.write rest a v

/-- The storage with consecutive bytes written from an address on, in increasing address order. -/
def Memory.writeBytes (m : Memory) (a : Nat) : List Byte → Memory
  | [] => m
  | v :: vs => Memory.writeBytes (Memory.write m a v) (a + 1) vs

/-- The canonical form: addresses strictly rising, and no entry equal to what an unlisted address reads as. -/
abbrev Memory.wf (m : Memory) : Prop :=
  m.Pairwise (fun c d => c.1 < d.1) ∧ ∀ c ∈ m, c.2 ≠ unlistedByte

/-- No cell is listed at or past a size. -/
abbrev Memory.within (m : Memory) (size : Nat) : Prop := ∀ c ∈ m, c.1 < size

/-! ### register_file (00_scope.md R22; 10_state.md R32) -/

/-- `x[r]` (00_scope.md R12). Every use tests the index first (41_load_arith_print.md R160), so the 0 at an index past the
register file is never read. -/
def State.x (s : State) (r : Byte) : Byte := s.regs.getD r.toNat 0

/-- `x[r] <- v`. No register is hardwired (10_state.md R33), and the register file keeps its length (00_scope.md R8). -/
def State.setX (s : State) (r : Byte) (v : Byte) : State := { s with regs := s.regs.set r.toNat v }

/-! ### program_counter (00_scope.md R19) -/

/-- `pc <- pc + 1`, after each byte fetched. -/
def State.pcIncrement (s : State) : State := { s with pc := s.pc + 1 }

/-- `pc <- target`, for a taken JMP or JZ. -/
def State.pcLoad (s : State) (t : Addr) : State := { s with pc := t.setWidth 17 }

/-! ### instruction_register (00_scope.md R20; 10_state.md R50) -/

/-- Load `ir.op`. -/
def State.latchOp (s : State) (v : Byte) : State := { s with ir := { s.ir with op := v } }

/-- Load `ir.bk`, the latch of the k-th operand byte, k from 1 to 3. -/
def State.latchOperand (s : State) (k : Nat) (v : Byte) : State :=
  match k with
  | 1 => { s with ir := { s.ir with b1 := v } }
  | 2 => { s with ir := { s.ir with b2 := v } }
  | 3 => { s with ir := { s.ir with b3 := v } }
  | _ => s

/-! ### Memory image: `MemRead(pc, 1)` (00_scope.md R13; 20_memory.md R71) -/

/-- The fetch bound (40_execute_loop.md R132, R135): there is a byte to fetch at `pc`. -/
def State.pcInMemory (s : State) : Bool := decide (s.pc.toNat < s.params.memorySize)

/-- The byte at `pc`. Every use tests `pcInMemory` first (00_scope.md R13). -/
def State.byteAtPc (s : State) : Byte := s.mem.read s.pc.toNat

/-! ### Diagnostic output channel (60_exceptions.md R280) -/

/-- `emit(e)` (00_scope.md R15): append an event. It never fails (92 D12). -/
def State.emit (s : State) (e : Event) : State := { s with out := s.out ++ [e] }

/-! ### Faults (60_exceptions.md R261, R270) -/

/-- The cause a subcause belongs to (R261). -/
def Subcause.cause : Subcause → Cause
  | .programTooLong => .capacity
  | .fetchOpcode => .bounds
  | .fetchOperand => .bounds
  | .registerIndex => .bounds
  | .jumpAddress => .bounds
  | .divideByZero => .arithmetic
  | .stackUnderflow => .stack
  | .stackOverflow => .stack
  | .illegalOpcode => .decode

/-- The cause number (R261). -/
def Cause.code : Cause → Nat
  | .capacity => 1
  | .bounds => 2
  | .arithmetic => 3
  | .stack => 4
  | .decode => 5

/-- The `cause` field of a fault record (R262). -/
def FaultRecord.cause (r : FaultRecord) : Cause := r.subcause.cause

/-- The fault action (R270), which is the whole of trap entry: emit the record, keep it, clear `running`. No state is
saved and control goes nowhere: there is no vector and no saved pc. There is no return from a fault beside it, because
the hardware has none (R273). -/
def State.raiseFault (s : State) (sub : Subcause) (ipc : Pc) (value : Nat) : State :=
  ({ s.emit (.fault ⟨sub, some ipc, value⟩) with fault := some ⟨sub, some ipc, value⟩ }).clearRunning

/-! ### stack_engine (00_scope.md R24; 43_stack.md R237) -/

/-- `S[i]` (00_scope.md R12). -/
def State.stackAt (s : State) (i : Nat) : Byte := s.stack.read i

/-- `push(v)`: none is the underflow indication, given when `sp = 0`; else write `S[sp]`, then decrement `sp`. -/
def State.stackPush (s : State) (v : Byte) : Option State :=
  if s.sp.toNat = 0 then none
  else some { s with stack := s.stack.write s.sp.toNat v, sp := s.sp - 1 }

/-- `pop()`: none is the overflow indication, given when `sp >= MEMORY_SIZE-1`; else increment `sp`, then read `S[sp]`.
A popped cell keeps its byte. -/
def State.stackPop (s : State) : Option (Byte × State) :=
  if s.params.memorySize - 1 ≤ s.sp.toNat then none
  else some (s.stack.read (s.sp + 1).toNat, { s with sp := s.sp + 1 })

end Sys2Proof.Machine
end

