-- ==== Sys2Proof/Machine/Operands.lean ====
section
/-! DEFINITION. The operand forms of the handlers (30_encoding.md R105 to R107) and their checks. A handler starts after
the fetch, with `pc = ipc + 1 + n(m)` (10_state.md R37). Each check takes what the handler does when it passes; when it
fails, the fault action is taken in the handler's own state, so a handler writes nothing before its last check
(40_execute_loop.md R136). The immediate of LOAD has no check (R106). -/

namespace Sys2Proof.Machine

/-- What a meaning answers. -/
abbrev Result := Host.Outcome State Fault Refusal

/-- `ipc`, the address of the opcode byte of the instruction whose handler runs: `pc - (1 + n(m))` (10_state.md R37). -/
def State.handlerIpc (s : State) (m : Mnemonic) : Pc := s.pc - BitVec.ofNat 17 (instrLength m)

/-- The handler's `raise`: a NEXT state, since the spec gives it (60_exceptions.md R270). -/
def trap (m : Mnemonic) (sub : Subcause) (value : Nat) (s : State) : Result :=
  .next (s.raiseFault sub (s.handlerIpc m) value)

/-- `checkReg(i)` (41_load_arith_print.md R160): the index byte names a register, or REGISTER_INDEX. The index is
compared as it is, never reduced modulo NUM_REGISTERS. -/
def checkReg (m : Mnemonic) (i : Byte) (s : State) (k : Result) : Result :=
  if i.toNat < s.params.numRegisters then k
  else trap m .registerIndex i.toNat s

/-- `checkAddr(t)` (42_control_flow.md R200): the target lies in the memory image, or JUMP_ADDRESS. -/
def checkAddr (m : Mnemonic) (t : Addr) (s : State) (k : Result) : Result :=
  if t.toNat < s.params.memorySize then k
  else trap m .jumpAddress t.toNat s

end Sys2Proof.Machine
end

