-- ==== Sys2Proof/Machine/ControlFlow.lean ====
section
/-! DEFINITION. HALT (40_execute_loop.md R140), JMP and JZ (42_control_flow.md). -/

namespace Sys2Proof.Machine

/-- HALT (R140). -/
def execHalt (s : State) : Result := .next s.clearRunning

/-- JMP addr (R201). -/
def execJmp (t : Addr) (s : State) : Result := checkAddr .jmp t s (.next (s.pcLoad t))

/-- The zero test of JZ, computed by the alu_unit operation ZERO (R206). -/
def isZero (v : Byte) : Bool := alu .zero v 0 == some 1

/-- JZ reg, addr (R205): the address is checked whether or not the branch is taken (R207); a branch not taken leaves
`pc` at the next instruction. -/
def execJz (reg : Byte) (t : Addr) (s : State) : Result :=
  checkReg .jz reg s <| checkAddr .jz t s
    (.next (if isZero (s.x reg) then s.pcLoad t else s))

end Sys2Proof.Machine
end

