-- ==== Sys2Proof/Machine/LoadArithPrint.lean ====
section
/-! DEFINITION. LOAD, ADD, SUB, MUL, DIV and PRINT (41_load_arith_print.md): the handlers of the register_file and the
alu_unit. `pc` is left as the fetch leaves it. -/

namespace Sys2Proof.Machine

/-- LOAD reg, value (R161). -/
def execLoad (reg value : Byte) (s : State) : Result :=
  checkReg .load reg s (.next (s.setX reg value))

/-- The three-register handlers (R162 to R166): the three index checks in encoding order, then both operands read, then
the alu_unit. Where it gives no `y` (dz = 1) the write is suppressed and DIVIDE_BY_ZERO is raised with the index regB
(R166, R168). -/
def arith (m : Mnemonic) (op : AluOp) (a b d : Byte) (s : State) : Result :=
  checkReg m a s <| checkReg m b s <| checkReg m d s <|
    match alu op (s.x a) (s.x b) with
    | some y => .next (s.setX d y)
    | none => trap m .divideByZero b.toNat s

/-- ADD regA, regB, regDst (R163). -/
def execAdd (a b d : Byte) (s : State) : Result := arith .add .add a b d s

/-- SUB regA, regB, regDst (R164). -/
def execSub (a b d : Byte) (s : State) : Result := arith .sub .sub a b d s

/-- MUL regA, regB, regDst (R165). -/
def execMul (a b d : Byte) (s : State) : Result := arith .mul .mul a b d s

/-- DIV regA, regB, regDst (R166). -/
def execDiv (a b d : Byte) (s : State) : Result := arith .div .div a b d s

/-- PRINT reg (R167). -/
def execPrint (reg : Byte) (s : State) : Result :=
  checkReg .print reg s (.next (s.emit (.print (s.x reg))))

end Sys2Proof.Machine
end

