-- ==== Sys2Proof/Machine/StackOps.lean ====
section
/-! DEFINITION. PUSH and POP (43_stack.md): the register index is checked before the stack_engine is asked (R237). -/

namespace Sys2Proof.Machine

/-- PUSH reg (R231). -/
def execPush (reg : Byte) (s : State) : Result :=
  checkReg .push reg s <|
    match s.stackPush (s.x reg) with
    | some t => .next t
    | none => trap .push .stackUnderflow s.sp.toNat s

/-- POP reg (R232). -/
def execPop (reg : Byte) (s : State) : Result :=
  checkReg .pop reg s <|
    match s.stackPop with
    | some (v, t) => .next (t.setX reg v)
    | none => trap .pop .stackOverflow s.sp.toNat s

end Sys2Proof.Machine
end

