-- ==== Sys2Proof/Machine/Dispatch.lean ====
section
/-! DEFINITION. The handler dispatch table (40_execute_loop.md R138): one arm for each instruction. -/

namespace Sys2Proof.Machine

def exec (i : Instr) (s : State) : Host.Outcome State Fault Refusal :=
  match i with
  | .halt => Sys2Proof.Machine.execHalt s
  | .load reg value => Sys2Proof.Machine.execLoad reg value s
  | .add a b d => Sys2Proof.Machine.execAdd a b d s
  | .sub a b d => Sys2Proof.Machine.execSub a b d s
  | .mul a b d => Sys2Proof.Machine.execMul a b d s
  | .div a b d => Sys2Proof.Machine.execDiv a b d s
  | .jmp t => Sys2Proof.Machine.execJmp t s
  | .jz reg t => Sys2Proof.Machine.execJz reg t s
  | .push reg => Sys2Proof.Machine.execPush reg s
  | .pop reg => Sys2Proof.Machine.execPop reg s
  | .print reg => Sys2Proof.Machine.execPrint reg s

end Sys2Proof.Machine
end

