-- ==== Sys2Proof/Machine/Fetch.lean ====
section
/-! DEFINITION. Instruction fetch and decode: the part of one step before the handler (40_execute_loop.md R131 to R135).
Bytes are fetched one at a time, in increasing address order, each into its latch, and `pc` is incremented once for each.
Every operand byte is fetched before any operand is validated (R134). -/

namespace Sys2Proof.Machine

/-- Fetch `n` operand bytes, the first of them into the latch `ir.bk` (R134). `.error` is the state after the fault
FETCH_OPERAND (R135). -/
def fetchOperands (ipc : Pc) : (n k : Nat) → State → Except State State
  | 0, _, s => .ok s
  | n + 1, k, s =>
    if s.pcInMemory then fetchOperands ipc n (k + 1) (s.latchOperand k s.byteAtPc).pcIncrement
    else .error (s.raiseFault .fetchOperand ipc s.pc.toNat)

/-- Fetch the opcode byte, decode it under the instance's OPCODE_MAP and fetch its operand bytes (R131). `.ok` is the
instruction and the state its handler starts in; `.error` is the state after the fault FETCH_OPCODE (R132), ILLEGAL_OPCODE
(R133) or FETCH_OPERAND. -/
def fetchDecode (s : State) : Except State (Instr × State) :=
  if s.pcInMemory then
    match dispatch s.params.opcodeMap s.byteAtPc with
    | none =>
      .error ((s.latchOp s.byteAtPc).pcIncrement.raiseFault .illegalOpcode s.pc s.byteAtPc.toNat)
    | some (m, n) =>
      match fetchOperands s.pc n 1 (s.latchOp s.byteAtPc).pcIncrement with
      | .error t => .error t
      | .ok t => .ok (instrOf m t.ir.b1 t.ir.b2 t.ir.b3, t)
  else .error (s.raiseFault .fetchOpcode s.pc s.pc.toNat)

/-- The bytes of the memory image from `pc` on that one instruction can occupy: at most four, none past the end. -/
def State.fetchWindow (s : State) : List Byte :=
  (List.range (min longestInstr (s.params.memorySize - s.pc.toNat))).map fun k => s.mem.read (s.pc.toNat + k)

end Sys2Proof.Machine
end

