-- ==== Sys2Proof/Machine/HostCommands.lean ====
section
/-! DEFINITION. The host interface (60_exceptions.md R290 to R292): the four commands INIT, LOAD, EXECUTE and RESET
(70_reset_and_hazards.md), and the sequencer's moves between IDLE and FETCH_OP (40_execute_loop.md R144). Commands are
synchronous: the next one is taken only when the last has completed (R291). -/

namespace Sys2Proof.Machine

/-- The instance is created (60_exceptions.md R290; 70_reset_and_hazards.md R300, R301) with a choice of the parameters of
00_scope.md R7. A choice outside their limits is ill-formed and refused (93 U13). -/
def build (p : Config.Params) : Host.Outcome State Fault Refusal :=
  if p.wf then .next (State.fresh p) else .refused .illFormedParameters

/-- Give the host a result. -/
def State.reply (s : State) (r : Reply) : State := { s with replies := s.replies ++ [r] }

/-- Every piece of state at its value after INIT or RESET (10_state.md R52), `sp` at the given one; the instance keeps its
parameters (00_scope.md R8). The latches take free values (R52 "unspecified"). The diagnostic channel is outside the block
and is not cleared, and no event is emitted (70_reset_and_hazards.md R302, R304). -/
def State.zeroed (s : State) (sp : Sp) : State :=
  { s with
    mem := []
    regs := List.replicate s.params.numRegisters 0
    stack := []
    pc := 0
    sp := sp
    running := false
    fault := none
    ir := ⟨Config.freeLatch s.draws, Config.freeLatch (s.draws + 1), Config.freeLatch (s.draws + 2),
      Config.freeLatch (s.draws + 3)⟩
    draws := s.draws + 4 }

/-- INIT (R302, R303). -/
def hostInit (s : State) : State := s.zeroed s.params.emptySp

/-- RESET (R304): `sp` takes the parameter SP_AFTER_RESET. -/
def hostReset (s : State) : State := s.zeroed (BitVec.ofNat 16 s.params.spAfterReset)

/-- LOAD(p) (R306): a program that is too long is refused, with a CAPACITY event and no change of the block (60 R263);
any other is copied to offset 0, and `running` is set. Nothing else changes (R308). -/
def hostLoad (p : List Byte) (s : State) : State :=
  if s.params.memorySize < p.length then
    (s.emit (.fault ⟨.programTooLong, none, p.length⟩)).reply .loadRefused
  else ({ s with mem := s.mem.writeBytes 0 p }).setRunning.reply .loadOk

/-- EXECUTE (40_execute_loop.md R130): enter the loop if `running`; otherwise it returns at once and changes nothing. -/
def hostExecute (s : State) : State :=
  if s.running then { s with seq := .fetchOp } else s.reply .executeReturned

/-- The loop's test at the end of an iteration (R130, R144): while `running`, FETCH_OP again; otherwise EXECUTE returns and
the sequencer is IDLE. -/
def State.endIteration (s : State) : State :=
  if s.running then s else ({ s with seq := .idle }).reply .executeReturned

/-- The effect of a host command on an idle block. -/
def perform (c : HostCommand) (s : State) : State :=
  match c with
  | .init => hostInit s
  | .load p => hostLoad p s
  | .execute => hostExecute s
  | .reset => hostReset s

/-- The host's move: a command is performed between EXECUTEs; during one there is no move for it, and it is refused (60
R291; 93 U1, U15). -/
def issue (c : HostCommand) (s : State) : Host.Outcome State Fault Refusal :=
  match s.seq with
  | .idle => .next (perform c s)
  | .fetchOp => .refused .commandDuringExecute

/-- IDLE (R144): wait for a host command. The next pending command, if there is one, is issued; with none pending nothing
changes (R286). -/
def idleMove (s : State) : Host.Outcome State Fault Refusal :=
  match s.commands with
  | [] => .next s
  | c :: rest => issue c { s with commands := rest }

end Sys2Proof.Machine
end

