-- ==== Sys2Proof/Machine/Iteration.lean ====
section
/-! DEFINITION. One iteration of the loop that EXECUTE runs (40_execute_loop.md R130, R131). -/

namespace Sys2Proof.Machine

/-- After a handler: the loop's test (R130). -/
def afterHandler (r : Host.Outcome State Fault Refusal) : Host.Outcome State Fault Refusal :=
  match r with
  | .next t => .next t.endIteration
  | .fault f => .fault f
  | .refused f => .refused f

/-- `while running: step()` once (R130): fetch, decode, the handler, and the test of `running`. -/
def iteration (s : State) : Host.Outcome State Fault Refusal :=
  if s.running then
    match fetchDecode s with
    | .error t => .next t.endIteration
    | .ok (i, t) => afterHandler (exec i t)
  else .next s.endIteration

/-- Where the instruction of `withFetchWord` is placed in a memory image of a size: at `pc` where its bytes fit there, else
at address 0. -/
def fetchSite (size : Nat) (pc : Pc) (length : Nat) : Pc :=
  if pc.toNat + length ≤ size then pc else 0

/-- The length of the instruction that a table word decodes to; 1, the opcode byte alone, where it decodes to none. -/
def tableLength (nbits w : Nat) : Nat :=
  match decodeTableWord nbits w with
  | some i => instrLength i.mnemonic
  | none => 1

/-- The memory image with the bytes of a table word written from an address on, none past the end of a size. -/
def Memory.placeTableWord (m : Memory) (size site nbits w : Nat) : Memory :=
  m.writeBytes site ((tableBytes nbits w).take (size - site))

end Sys2Proof.Machine
end

