-- ==== Sys2Proof/Machine/Step.lean ====
section
/-! DEFINITION. One step of the machine: in IDLE it takes the host's next command, in FETCH_OP it executes one whole
instruction (40_execute_loop.md R131, R137, R144; 92 D4). -/

namespace Sys2Proof.Machine

/-- One step. It is a function of the state alone (R139), which holds the parameters the instance was built with. -/
def step (s : State) : Host.Outcome State Fault Refusal :=
  match s.seq with
  | .idle => idleMove s
  | .fetchOp => iteration s

/-- The state with an instruction, given as a word of spec/opcode_table.json, stored where `step` fetches next, and with
an EXECUTE in progress (`running` true, the sequencer in FETCH_OP), so that the next step runs it. `pc` moves only where
the instruction would not fit at it. It stands for the host's LOAD and EXECUTE (notes/assumptions 15). -/
def State.withFetchWord (s : State) (nbits w : Nat) : State :=
  let site := fetchSite s.params.memorySize s.pc (tableLength nbits w)
  { s with
    mem := s.mem.placeTableWord s.params.memorySize site.toNat nbits w
    pc := site
    running := true
    seq := .fetchOp }

end Sys2Proof.Machine
end

