-- ==== Sys2Proof/Machine/Assembler.lean ====
section
/-! DEFINITION. The assembler notation of 30_encoding.md R120 and R121 (92 D17): from text to statements, and from
statements to the bytes of a program whose first byte is at address 0. It has no effect on the machine; claims and tests
may write a program in it. There are no pseudo-instructions (R122). Text is a list of characters. -/

namespace Sys2Proof.Machine

/-- An operand as written: an unsigned decimal number or a label (R120, R121). -/
inductive AsmOperand where
  | number (n : Nat)
  | label (name : List Char)
  deriving DecidableEq, Repr

/-- A statement (R120): an optional label, a mnemonic and its operands in encoding order. -/
structure AsmStmt where
  label : Option (List Char)
  mnemonic : Mnemonic
  operands : List AsmOperand
  deriving DecidableEq, Repr

/-- What an operand stands for (R121): one byte (a register index or the value of LOAD) or a 16-bit address. -/
inductive AsmKind where
  | byte
  | address
  deriving DecidableEq, Repr

/-- The operands a mnemonic takes in assembly (R121): JMP and JZ take ONE address operand. -/
def asmKinds : Mnemonic → List AsmKind
  | .halt => []
  | .load => [.byte, .byte]
  | .add => [.byte, .byte, .byte]
  | .sub => [.byte, .byte, .byte]
  | .mul => [.byte, .byte, .byte]
  | .div => [.byte, .byte, .byte]
  | .jmp => [.address]
  | .jz => [.byte, .address]
  | .push => [.byte]
  | .pop => [.byte]
  | .print => [.byte]

/-- Each label with the address of its statement's opcode byte (R120), for statements laid out from an address on. -/
def labelTable (at0 : Nat) : List AsmStmt → List (List Char × Nat)
  | [] => []
  | st :: rest =>
    match st.label with
    | some l => (l, at0) :: labelTable (at0 + instrLength st.mnemonic) rest
    | none => labelTable (at0 + instrLength st.mnemonic) rest

/-- The number an operand stands for; none for a label that no statement carries. -/
def asmValue (table : List (List Char × Nat)) : AsmOperand → Option Nat
  | .number n => some n
  | .label l => (table.find? (fun e => e.1 == l)).map Prod.snd

/-- The bytes of one operand, an address high byte first; none where it is out of the range R121 gives. -/
def asmOperandBytes (table : List (List Char × Nat)) : AsmKind → AsmOperand → Option (List Byte)
  | .byte, .number n => if n < 256 then some [BitVec.ofNat 8 n] else none
  | .byte, .label _ => none
  | .address, o =>
    match asmValue table o with
    | some n => if n < 65536 then some [addrHi (BitVec.ofNat 16 n), addrLo (BitVec.ofNat 16 n)] else none
    | none => none

/-- The bytes of the operands; none where their number or a kind does not fit. -/
def asmOperandsBytes (table : List (List Char × Nat)) : List AsmKind → List AsmOperand → Option (List Byte)
  | [], [] => some []
  | k :: ks, o :: os =>
    match asmOperandBytes table k o, asmOperandsBytes table ks os with
    | some bs, some rest => some (bs ++ rest)
    | _, _ => none
  | _, _ => none

/-- The bytes of the statements under a label table. -/
def asmBytes (map : Config.OpcodeMap) (table : List (List Char × Nat)) : List AsmStmt → Option (List Byte)
  | [] => some []
  | st :: rest =>
    match asmOperandsBytes table (asmKinds st.mnemonic) st.operands, asmBytes map table rest with
    | some bs, some more => some (map.code st.mnemonic :: bs ++ more)
    | _, _ => none

/-- The program a list of statements stands for, placed at address 0 (70_reset_and_hazards.md R306). A label carried by
two statements is rejected (DESIGN CHOICE, notes/assumptions 24). -/
def assembleWith (map : Config.OpcodeMap) (stmts : List AsmStmt) : Option (List Byte) :=
  if ((labelTable 0 stmts).map Prod.fst).Nodup then asmBytes map (labelTable 0 stmts) stmts else none

/-- The mnemonic a word in capitals names (R120). -/
def mnemonicOfWord : List Char → Option Mnemonic
  | ['H', 'A', 'L', 'T'] => some .halt
  | ['L', 'O', 'A', 'D'] => some .load
  | ['A', 'D', 'D'] => some .add
  | ['S', 'U', 'B'] => some .sub
  | ['M', 'U', 'L'] => some .mul
  | ['D', 'I', 'V'] => some .div
  | ['J', 'M', 'P'] => some .jmp
  | ['J', 'Z'] => some .jz
  | ['P', 'U', 'S', 'H'] => some .push
  | ['P', 'O', 'P'] => some .pop
  | ['P', 'R', 'I', 'N', 'T'] => some .print
  | _ => none

/-- The pieces of a text between the separators. -/
def pieces (sep : Char → Bool) : List Char → List (List Char)
  | [] => [[]]
  | c :: cs =>
    match sep c, pieces sep cs with
    | true, ws => [] :: ws
    | false, [] => [[c]]
    | false, w :: ws => (c :: w) :: ws

/-- The text without the spaces at both ends (DESIGN CHOICE, notes/assumptions 24). -/
def trimmed (cs : List Char) : List Char :=
  ((cs.dropWhile (· == ' ')).reverse.dropWhile (· == ' ')).reverse

/-- A letter, a digit or an underscore. -/
def isWordChar (c : Char) : Bool := c.isAlphanum || c == '_'

/-- An identifier: it begins with a letter or an underscore (DESIGN CHOICE, notes/assumptions 24). -/
def isIdentifier : List Char → Bool
  | [] => false
  | c :: cs => (c.isAlpha || c == '_') && cs.all isWordChar

/-- A label: an identifier, or the source's placeholder form `<addr>` (R120). -/
def isLabel (cs : List Char) : Bool :=
  isIdentifier cs ||
    match cs with
    | '<' :: rest => rest.getLast? == some '>' && isIdentifier rest.dropLast
    | _ => false

/-- The value of a string of decimal digits. -/
def decimalValue (cs : List Char) : Nat := cs.foldl (fun n c => 10 * n + (c.toNat - '0'.toNat)) 0

/-- An operand word. -/
def operandOfWord (cs : List Char) : Option AsmOperand :=
  if cs ≠ [] ∧ cs.all Char.isDigit then some (.number (decimalValue cs))
  else if isLabel cs then some (.label cs)
  else none

/-- The operand words of a statement. -/
def operandsOfWords : List (List Char) → Option (List AsmOperand)
  | [] => some []
  | w :: ws =>
    match operandOfWord w, operandsOfWords ws with
    | some o, some os => some (o :: os)
    | _, _ => none

/-- A mnemonic and its operands, separated by single spaces (R120). -/
def stmtOfWords (label : Option (List Char)) : List (List Char) → Option AsmStmt
  | [] => none
  | m :: ws =>
    match mnemonicOfWord m, operandsOfWords ws with
    | some m, some os => some ⟨label, m, os⟩
    | _, _ => none

/-- A statement, with its label before it if it has one (R120). R120 puts `:` before a statement and says no more of the
spacing there, so the following is the model's choice (DESIGN CHOICE, notes/assumptions 24): exactly one space stands after
the colon and none before it, so `loop:HALT` is rejected; a statement has at most one label; a label alone on its line is
rejected; any number of spaces around the whole statement is dropped. -/
def stmtOfText (cs : List Char) : Option AsmStmt :=
  match pieces (· == ' ') (trimmed cs) with
  | w :: ws =>
    if w.getLast? = some ':' then (if isLabel w.dropLast then stmtOfWords (some w.dropLast) ws else none)
    else stmtOfWords none (w :: ws)
  | [] => none

/-- The statements of the pieces of a text; a piece with nothing but spaces is no statement (DESIGN CHOICE,
notes/assumptions 24). -/
def stmtsOfPieces : List (List Char) → Option (List AsmStmt)
  | [] => some []
  | p :: ps =>
    if trimmed p = [] then stmtsOfPieces ps
    else
      match stmtOfText p, stmtsOfPieces ps with
      | some st, some sts => some (st :: sts)
      | _, _ => none

/-- The statements of a text, separated by `;` or a newline (R120); none where it is not in the notation. -/
def parseText (cs : List Char) : Option (List AsmStmt) :=
  stmtsOfPieces (pieces (fun c => c == ';' || c == '\n') cs)

/-- The program a text stands for under an OPCODE_MAP. -/
def assembleTextWith (map : Config.OpcodeMap) (cs : List Char) : Option (List Byte) :=
  match parseText cs with
  | some sts => assembleWith map sts
  | none => none

/-- The program a text stands for under the default OPCODE_MAP. -/
def assembleText (cs : List Char) : Option (List Byte) := assembleTextWith opcodeMap cs

end Sys2Proof.Machine
end

