-- ==== Sys2Proof/Machine/Run.lean ====
section
/-! DEFINITION. A whole EXECUTE under fuel (40_execute_loop.md R142, R143; 92 D20), and a list of handlers run one after
another, for claims about more than one instruction. -/

namespace Sys2Proof.Machine

/-- How an EXECUTE ends under a step budget (R142, R143): by HALT, by a fault, or not within the budget, which is neither. -/
inductive RunEnd where
  | halted (s : State)
  | faulted (s : State)
  | outOfFuel (s : State)
  deriving DecidableEq, Repr

/-- The end of a run (R143): by HALT if no fault is recorded, by a fault otherwise. It reads the record alone, so a record
kept from an earlier run counts (notes/assumptions 18). -/
def runEnd (s : State) : RunEnd :=
  match s.fault with
  | none => .halted s
  | some _ => .faulted s

/-- Run the EXECUTE in progress for at most `fuel` steps, until the sequencer is IDLE. R143 defines the end of a run only
after a step. For a block in IDLE, where no run is in progress (after INIT, or between LOAD and EXECUTE with `running`
true), this answers `runEnd` at once and takes no step: halted, or faulted if a record is kept. That answer is the model's
choice (DESIGN CHOICE, notes/assumptions 26). -/
def runExecute : Nat → State → Host.Outcome RunEnd Fault Refusal
  | 0, s => .next (if s.seq = .idle then runEnd s else .outOfFuel s)
  | fuel + 1, s =>
    if s.seq = .idle then .next (runEnd s)
    else
      match step s with
      | .next t => runExecute fuel t
      | .fault f => .fault f
      | .refused f => .refused f

/-- The handlers of a list of instructions, one after another. -/
def execAll : List Instr → State → Result
  | [], s => .next s
  | i :: is, s =>
    match exec i s with
    | .next t => execAll is t
    | .fault f => .fault f
    | .refused f => .refused f

end Sys2Proof.Machine
end

