-- ==== Sys2Proof/Safety.lean ====
section
/-! DEFINITION. What claims are stated in: the invariant of the machine, what a safe state is, and which part of the state
a program can observe. -/

namespace Sys2Proof.Safety

open Sys2Proof.Machine

/-- What holds in every state of every run: the parameters are inside the limits of 00_scope.md R7; `M` and `S` keep their
canonical form and no cell lies past MEMORY_SIZE (10_state.md R30); `S[0]`, which no instruction writes, reads 0 (R48); the
register file has NUM_REGISTERS cells (R32); `pc` never exceeds MEMORY_SIZE (R40) and `sp` stays below it (R47); the
sequencer is in FETCH_OP only while `running` (40_execute_loop.md R144); the recorded fault has been emitted on the channel
(10_state.md R51). -/
structure Inv (s : State) : Prop where
  params_wf : s.params.wf = true
  mem_wf : s.mem.wf
  mem_within : s.mem.within s.params.memorySize
  stack_wf : s.stack.wf
  stack_within : s.stack.within s.params.memorySize
  stack_zero : s.stackAt 0 = 0
  regs_length : s.regs.length = s.params.numRegisters
  pc_le : s.pc.toNat ≤ s.params.memorySize
  sp_lt : s.sp.toNat < s.params.memorySize
  fetch_running : s.seq = .fetchOp → s.running = true
  fault_emitted : ∀ r, s.fault = some r → Event.fault r ∈ s.out

/-- No fault is recorded (92 D13). -/
def NoFault (s : State) : Prop := s.fault = none

/-- The two states differ at most in the latches, which no program can observe (10_state.md R50), in the counter of free
values, and in what the outside world has seen or been told so far: the diagnostic channel and the results given to the
host. -/
structure SameToProgram (s t : State) : Prop where
  params : s.params = t.params
  mem : s.mem = t.mem
  regs : s.regs = t.regs
  stack : s.stack = t.stack
  pc : s.pc = t.pc
  sp : s.sp = t.sp
  running : s.running = t.running
  fault : s.fault = t.fault
  seq : s.seq = t.seq
  commands : s.commands = t.commands

end Sys2Proof.Safety
end

