-- ==== Sys2Proof/Certificates/Slice0/Obligations.lean ====
section
/-! DEFINITION. The statements for the provers. The definitions of `Sys2Proof.Spec` come first: they write the spec's own
words out as record updates and tables, without the model's operations, so that a statement does not repeat a meaning.

Handlers. `exec i s` is the handler of `i` in the state the fetch leaves (40_execute_loop.md R131): there `pc` is
`ipc + 1 + n(m)` (10_state.md R37), `ipc` being the address of the opcode byte. So a statement about a handler takes `ipc`
with `s.pc = ipc + length`, and "`pc` unchanged by the handler" is the spec's "`pc = ipc + length`".

Parameters. A statement holds for every instance: it reads the sizes, the OPCODE_MAP and SP_AFTER_RESET the instance was built
with from the state (00_scope.md R7, R8). Where it needs the limits of R7 it takes `s.params.wf` as a premise, which `build`
gives and every step keeps (`ResetMeetsTheInvariant`, `EveryStepKeepsTheInvariant`); so for the other premises about
unreachable states (canonical storage, the length of the register file, `sp` inside the stack).

Fault records. That a fault keeps a record, and what the record holds, are the spec's own choices (92 D7, D13), and so is
the order of the checks (92 D8); every clause below that names a record or an order rests on them. -/

open Sys2Proof Sys2Proof.Machine

namespace Sys2Proof.Spec

/-- The state after the fault action of 60_exceptions.md R270, in a state whose `pc` and latches are those at the failing
check: the event is emitted, the record kept and `running` cleared; nothing else happens. -/
def faulted (s : State) (sub : Subcause) (ipc : Pc) (value : Nat) : State :=
  { s with
    out := s.out ++ [.fault ⟨sub, some ipc, value⟩]
    fault := some ⟨sub, some ipc, value⟩
    running := false }

/-- The state after EXECUTE has returned (40_execute_loop.md R144; 60_exceptions.md R290). -/
def returned (s : State) : State :=
  { s with seq := .idle, replies := s.replies ++ [.executeReturned] }

/-- An EXECUTE is in progress on a legal instance and the loop starts another step (40_execute_loop.md R130). -/
def Stepping (s : State) : Prop := s.params.wf = true ∧ s.seq = .fetchOp ∧ s.running = true

/-- The instance has a register with this index (41_load_arith_print.md R160). -/
def IsRegister (s : State) (r : Byte) : Prop := r.toNat < s.params.numRegisters

/-- From `s` to `t` exactly one register is written. -/
def RegisterWritten (r v : Byte) (s t : State) : Prop :=
  t = { s with regs := t.regs } ∧ t.regs.length = s.regs.length ∧ t.x r = v ∧ ∀ q, q ≠ r → t.x q = s.x q

/-- The three index faults of ADD, SUB, MUL and DIV, the first bad index of a, b, d in that order being reported (41 R163
to R166). -/
def IndexFaults (i : Instr) (a b d : Byte) (ipc : Pc) (s : State) : Prop :=
  (¬ IsRegister s a → exec i s = .next (faulted s .registerIndex ipc a.toNat)) ∧
  (IsRegister s a → ¬ IsRegister s b → exec i s = .next (faulted s .registerIndex ipc b.toNat)) ∧
  (IsRegister s a → IsRegister s b → ¬ IsRegister s d → exec i s = .next (faulted s .registerIndex ipc d.toNat))

/-- The register operand an instruction writes (10_state.md R34). -/
def destination : Instr → Option Byte
  | .halt => none
  | .load reg _ => some reg
  | .add _ _ d => some d
  | .sub _ _ d => some d
  | .mul _ _ d => some d
  | .div _ _ d => some d
  | .jmp _ => none
  | .jz _ _ => none
  | .push _ => none
  | .pop reg => some reg
  | .print _ => none

/-- The register operands an instruction reads (10_state.md R34). -/
def sources : Instr → List Byte
  | .halt => []
  | .load _ _ => []
  | .add a b _ => [a, b]
  | .sub a b _ => [a, b]
  | .mul a b _ => [a, b]
  | .div a b _ => [a, b]
  | .jmp _ => []
  | .jz reg _ => [reg]
  | .push reg => [reg]
  | .pop _ => []
  | .print reg => [reg]

/-- The bytes at `pc` decode to an instruction, under the instance's OPCODE_MAP. -/
def At (s : State) (i : Instr) : Prop := ∃ rest, decodeWith s.params.opcodeMap s.fetchWindow = .ok (i, rest)

/-- The next instruction is HALT. -/
def AtHalt (s : State) : Prop := At s .halt

/-- Everything but the register file, the stack and its pointer, `pc`, and what the fault action writes. -/
def RestUnchanged (s t : State) : Prop :=
  t.params = s.params ∧ (∀ a, t.mem.read a = s.mem.read a) ∧ t.ir = s.ir ∧ t.seq = s.seq ∧ t.commands = s.commands ∧
    t.replies = s.replies ∧ t.draws = s.draws

/-- The status flag, the fault record and the channel are unchanged, or they are what the fault action with the record
makes them. -/
def NoFaultOr (s t : State) (rec : FaultRecord → Prop) : Prop :=
  (t.running = s.running ∧ t.fault = s.fault ∧ t.out = s.out) ∨
    ∃ r, rec r ∧ t.running = false ∧ t.fault = some r ∧ t.out = s.out ++ [.fault r]

/-- An instruction as a statement of the assembler notation (30_encoding.md R120, R121): JMP and JZ with ONE address. -/
def asmOf : Instr → AsmStmt
  | .halt => ⟨none, .halt, []⟩
  | .load reg v => ⟨none, .load, [.number reg.toNat, .number v.toNat]⟩
  | .add a b d => ⟨none, .add, [.number a.toNat, .number b.toNat, .number d.toNat]⟩
  | .sub a b d => ⟨none, .sub, [.number a.toNat, .number b.toNat, .number d.toNat]⟩
  | .mul a b d => ⟨none, .mul, [.number a.toNat, .number b.toNat, .number d.toNat]⟩
  | .div a b d => ⟨none, .div, [.number a.toNat, .number b.toNat, .number d.toNat]⟩
  | .jmp t => ⟨none, .jmp, [.number t.toNat]⟩
  | .jz reg t => ⟨none, .jz, [.number reg.toNat, .number t.toNat]⟩
  | .push reg => ⟨none, .push, [.number reg.toNat]⟩
  | .pop reg => ⟨none, .pop, [.number reg.toNat]⟩
  | .print reg => ⟨none, .print, [.number reg.toNat]⟩

end Sys2Proof.Spec

open Sys2Proof.Spec Sys2Proof.Safety

/-! ### Encoding -/

/-- Decoding an encoded instruction gives it back, with every operand at every value, under every injective OPCODE_MAP
(30_encoding.md R101, R102, R104, R107). -/
def Obligations.DecodeOfEncodeIsTheInstruction : Prop :=
  ∀ (map : Config.OpcodeMap), map.wf = true → ∀ (i : Instr) (rest : List Byte),
    decodeWith map (encodeWith map i ++ rest) = .ok (i, rest)

/-- The other direction: bytes that decode are the encoding of what they decode to, followed by the bytes left. -/
def Obligations.EncodeOfDecodeIsTheBytes : Prop :=
  ∀ (map : Config.OpcodeMap) (bytes : List Byte) (i : Instr) (rest : List Byte),
    decodeWith map bytes = .ok (i, rest) → encodeWith map i ++ rest = bytes

/-- The opcode_dispatcher is the inverse of an injective OPCODE_MAP, and total (30_encoding.md R109; that the map is a
parameter is the spec's choice, 92 D1). -/
def Obligations.DispatcherInvertsTheOpcodeMap : Prop :=
  ∀ (map : Config.OpcodeMap), map.wf = true → ∀ (op : Byte),
    (∀ m, map.code m = op → dispatch map op = some (m, operandCount m)) ∧
    ((∀ m, map.code m ≠ op) → dispatch map op = none)

/-- The worked encodings of 30_encoding.md R123 under the default map (which is the spec's choice, 92 D1): each decodes to
its instruction, and `JMP 300` faults at execution. -/
def Obligations.WorkedEncodingsDecode : Prop :=
  decode [0x01, 0x00, 0x05] = .ok (.load 0 5, []) ∧
  decode [0x02, 0x00, 0x01, 0x02] = .ok (.add 0 1 2, []) ∧
  decode [0x0A, 0x02] = .ok (.print 2, []) ∧
  decode [0x00] = .ok (.halt, []) ∧
  decode [0x06, 0x00, 0x06] = .ok (.jmp 6, []) ∧
  decode [0x07, 0x00, 0x00, 0x0A] = .ok (.jz 0 10, []) ∧
  decode [0x06, 0x01, 0x2C] = .ok (.jmp 300, []) ∧
  decode [0x08, 0x03] = .ok (.push 3, []) ∧
  decode [0x09, 0x07] = .ok (.pop 7, []) ∧
  ∀ (s : State) (ipc : Pc), s.params.memorySize = 256 → s.pc = ipc + 3 →
    exec (.jmp 300) s = .next (faulted s .jumpAddress ipc 300)

/-- Statements without labels assemble to the concatenated encodings of their instructions (30_encoding.md R121; the
notation is the spec's choice, 92 D17). -/
def Obligations.AssembledStatementsAreEncodings : Prop :=
  ∀ (map : Config.OpcodeMap) (is : List Instr),
    assembleWith map (is.map asmOf) = some (is.flatMap (encodeWith map))

/-! ### The loop -/

/-- When the bytes at `pc` decode to an instruction under the instance's OPCODE_MAP, the step is its handler, run where the
fetch leaves `pc` and the latches (40_execute_loop.md R131, R134; 10_state.md R37, R50, the latches being the spec's choice 92
D3), and then the loop's test of `running` (R130). -/
def Obligations.StepRunsTheDecodedInstruction : Prop :=
  ∀ (s : State) (i : Instr) (rest : List Byte), Stepping s →
    decodeWith s.params.opcodeMap s.fetchWindow = .ok (i, rest) →
    ∃ ir : InstrReg,
      ir.op = s.mem.read s.pc.toNat ∧
      ir.b1 = (if 1 ≤ operandCount i.mnemonic then s.mem.read (s.pc.toNat + 1) else s.ir.b1) ∧
      ir.b2 = (if 2 ≤ operandCount i.mnemonic then s.mem.read (s.pc.toNat + 2) else s.ir.b2) ∧
      ir.b3 = (if 3 ≤ operandCount i.mnemonic then s.mem.read (s.pc.toNat + 3) else s.ir.b3) ∧
      step s =
        match exec i { s with pc := s.pc + BitVec.ofNat 17 (1 + operandCount i.mnemonic), ir := ir } with
        | .next t => .next (if t.running = true then t else returned t)
        | .fault f => .fault f
        | .refused r => .refused r

/-- An opcode fetch at `pc >= MEMORY_SIZE` faults with FETCH_OPCODE and leaves `pc` unchanged (40_execute_loop.md R132; the
category is the spec's choice, 92 D6; the record 92 D7 and D13). -/
def Obligations.OpcodeFetchPastTheEndFaults : Prop :=
  ∀ s : State, Stepping s → s.params.memorySize ≤ s.pc.toNat →
    step s = .next (returned (faulted s .fetchOpcode s.pc s.pc.toNat))

/-- An opcode byte outside OPCODE_MAP raises ILLEGAL_OPCODE with no operand byte fetched: `pc = ipc + 1` (40_execute_loop.md
R133; 60_exceptions.md R265). Under the default map, the spec's choice 92 D1, those are the bytes 0x0B to 0xFF. The record's
contents and that it is kept are 92 D7 and D13, the latches 92 D3 (notes/assumptions 2, 11, 21). -/
def Obligations.UnassignedOpcodeFaults : Prop :=
  (∀ op : Byte, (∀ m, opcodeMap.code m ≠ op) ↔ 0x0B ≤ op.toNat) ∧
  ∀ s : State, Stepping s → s.pc.toNat < s.params.memorySize →
    (∀ m, s.params.opcodeMap.code m ≠ s.mem.read s.pc.toNat) →
    step s = .next (returned (faulted
      { s with pc := s.pc + 1, ir := { s.ir with op := s.mem.read s.pc.toNat } }
      .illegalOpcode s.pc (s.mem.read s.pc.toNat).toNat))

/-- An operand fetch past the end faults with FETCH_OPERAND: `pc` stays at MEMORY_SIZE and no handler effect takes place
(40_execute_loop.md R135, which is the spec's choice 92 D6; the record 92 D7 and D13). -/
def Obligations.OperandFetchPastTheEndFaults : Prop :=
  ∀ (s : State) (m : Mnemonic), Stepping s → s.pc.toNat < s.params.memorySize →
    s.params.opcodeMap.code m = s.mem.read s.pc.toNat →
    s.params.memorySize < s.pc.toNat + 1 + operandCount m →
    ∃ pc ir, pc.toNat = s.params.memorySize ∧
      step s = .next (returned (faulted { s with pc := pc, ir := ir } .fetchOperand s.pc s.params.memorySize))

/-- Every step answers a next state: no instruction, no byte and no state is without a behaviour (40_execute_loop.md R139:
every outcome of a step is continue, halt or fault, and a fault's state is given by 60_exceptions.md R270). -/
def Obligations.EveryStepAnswersANextState : Prop :=
  ∀ s : State, ∃ t, step s = .next t

/-- A step that begins with no fault recorded continues, halts by HALT with no fault, or faults (40_execute_loop.md R139).
The premise rules out a record kept from an earlier run, which a LOAD without RESET leaves (70 R308). -/
def Obligations.StepContinuesHaltsOrFaults : Prop :=
  ∀ s t : State, Stepping s → s.fault = none → step s = .next t →
    (Stepping t ∧ t.fault = none ∧ ¬ AtHalt s) ∨
    (t.running = false ∧ t.seq = .idle ∧ t.fault = none ∧ t.out = s.out ∧ AtHalt s) ∨
    (t.running = false ∧ t.seq = .idle ∧ ¬ AtHalt s ∧ ∃ r, t.fault = some r ∧ t.out = s.out ++ [.fault r])

/-- The loop of EXECUTE (40_execute_loop.md R130): EXECUTE enters it only while `running` and otherwise changes nothing; it
reads `running` at the start of each iteration; after an iteration it goes on exactly while `running`. The third clause, of
states no run reaches, is the model's reading (DEDUCED, notes/assumptions 16). -/
def Obligations.ExecuteLoopsWhileRunning : Prop :=
  (∀ (s : State) rest, s.seq = .idle → s.commands = .execute :: rest → s.running = false →
    step s = .next { s with commands := rest, replies := s.replies ++ [.executeReturned] }) ∧
  (∀ (s : State) rest, s.seq = .idle → s.commands = .execute :: rest → s.running = true →
    step s = .next { s with commands := rest, seq := .fetchOp }) ∧
  (∀ s : State, s.seq = .fetchOp → s.running = false → step s = .next (returned s)) ∧
  (∀ s t : State, Stepping s → step s = .next t → (t.seq = .fetchOp ↔ t.running = true))

/-! ### The instructions -/

/-- HALT (40_execute_loop.md R140): `running` is cleared and nothing else changes; so a step at a HALT leaves `pc = ipc + 1`,
the fault record as it was and no event. -/
def Obligations.HaltStopsTheRun : Prop :=
  (∀ map : Config.OpcodeMap, encodeWith map .halt = [map.halt]) ∧
  (∀ s : State, exec .halt s = .next { s with running := false }) ∧
  ∀ (s : State) (rest : List Byte), Stepping s →
    decodeWith s.params.opcodeMap s.fetchWindow = .ok (.halt, rest) →
    ∃ ir, step s = .next (returned { s with pc := s.pc + 1, ir := ir, running := false })

/-- LOAD (41_load_arith_print.md R161). The fault clause fixes what the record holds and that it is kept, the spec's choices
92 D7 and D13 (notes/assumptions 11, 21). -/
def Obligations.LoadWritesTheImmediate : Prop :=
  (∀ (map : Config.OpcodeMap) reg value, encodeWith map (.load reg value) = [map.load, reg, value]) ∧
  ∀ (reg value : Byte) (s : State) (ipc : Pc), s.pc = ipc + 3 → s.regs.length = s.params.numRegisters →
    (IsRegister s reg → ∃ t, exec (.load reg value) s = .next t ∧ RegisterWritten reg value s t) ∧
    (¬ IsRegister s reg → exec (.load reg value) s = .next (faulted s .registerIndex ipc reg.toNat))

/-- ADD (41_load_arith_print.md R163). The fault clauses fix what the record holds and that it is
kept, the spec's choices 92 D7 and D13, and its order is 92 D8 (notes/assumptions 11, 21). -/
def Obligations.AddWritesTheSumModulo256 : Prop :=
  (∀ (map : Config.OpcodeMap) a b d, encodeWith map (.add a b d) = [map.add, a, b, d]) ∧
  ∀ (a b d : Byte) (s : State) (ipc : Pc), s.pc = ipc + 4 → s.regs.length = s.params.numRegisters →
    (IsRegister s a → IsRegister s b → IsRegister s d → ∃ t, exec (.add a b d) s = .next t ∧
      RegisterWritten d (BitVec.ofNat 8 (((s.x a).toNat + (s.x b).toNat) % 256)) s t) ∧
    IndexFaults (.add a b d) a b d ipc s

/-- SUB (41_load_arith_print.md R164). The fault clauses fix what the record holds and that it is
kept, the spec's choices 92 D7 and D13, and its order is 92 D8 (notes/assumptions 11, 21). -/
def Obligations.SubWritesTheDifferenceModulo256 : Prop :=
  (∀ (map : Config.OpcodeMap) a b d, encodeWith map (.sub a b d) = [map.sub, a, b, d]) ∧
  ∀ (a b d : Byte) (s : State) (ipc : Pc), s.pc = ipc + 4 → s.regs.length = s.params.numRegisters →
    (IsRegister s a → IsRegister s b → IsRegister s d → ∃ t, exec (.sub a b d) s = .next t ∧
      RegisterWritten d (if (s.x b).toNat ≤ (s.x a).toNat
        then BitVec.ofNat 8 ((s.x a).toNat - (s.x b).toNat)
        else BitVec.ofNat 8 ((s.x a).toNat + 256 - (s.x b).toNat)) s t) ∧
    IndexFaults (.sub a b d) a b d ipc s

/-- MUL (41_load_arith_print.md R165). The fault clauses fix what the record holds and that it is
kept, the spec's choices 92 D7 and D13, and its order is 92 D8 (notes/assumptions 11, 21). -/
def Obligations.MulWritesTheProductModulo256 : Prop :=
  (∀ (map : Config.OpcodeMap) a b d, encodeWith map (.mul a b d) = [map.mul, a, b, d]) ∧
  ∀ (a b d : Byte) (s : State) (ipc : Pc), s.pc = ipc + 4 → s.regs.length = s.params.numRegisters →
    (IsRegister s a → IsRegister s b → IsRegister s d → ∃ t, exec (.mul a b d) s = .next t ∧
      RegisterWritten d (BitVec.ofNat 8 (((s.x a).toNat * (s.x b).toNat) % 256)) s t) ∧
    IndexFaults (.mul a b d) a b d ipc s

/-- DIV (41_load_arith_print.md R166): the quotient, the fault on a divisor of 0 with the destination unchanged, and the
index faults, which come first. The fault clauses fix what the record holds and that it is kept, the spec's choices 92 D7 and
D13, and its order is 92 D8 (notes/assumptions 11, 21). -/
def Obligations.DivWritesTheQuotientOrFaults : Prop :=
  (∀ (map : Config.OpcodeMap) a b d, encodeWith map (.div a b d) = [map.div, a, b, d]) ∧
  ∀ (a b d : Byte) (s : State) (ipc : Pc), s.pc = ipc + 4 → s.regs.length = s.params.numRegisters →
    (IsRegister s a → IsRegister s b → IsRegister s d →
      ((s.x b).toNat ≠ 0 → ∃ t, exec (.div a b d) s = .next t ∧
        RegisterWritten d (BitVec.ofNat 8 ((s.x a).toNat / (s.x b).toNat)) s t) ∧
      ((s.x b).toNat = 0 → exec (.div a b d) s = .next (faulted s .divideByZero ipc b.toNat))) ∧
    IndexFaults (.div a b d) a b d ipc s

/-- PRINT (41_load_arith_print.md R167; that the channel is a list of events is the spec's choice, 92 D12; the record 92 D7
and D13). -/
def Obligations.PrintEmitsTheRegister : Prop :=
  (∀ (map : Config.OpcodeMap) reg, encodeWith map (.print reg) = [map.print, reg]) ∧
  ∀ (reg : Byte) (s : State) (ipc : Pc), s.pc = ipc + 2 →
    (IsRegister s reg → exec (.print reg) s = .next { s with out := s.out ++ [.print (s.x reg)] }) ∧
    (¬ IsRegister s reg → exec (.print reg) s = .next (faulted s .registerIndex ipc reg.toNat))

/-- JMP (42_control_flow.md R201), with the big-endian address of R200. The fault clause fixes what the record holds and that
it is kept, the spec's choices 92 D7 and D13 (notes/assumptions 11, 21). -/
def Obligations.JmpLoadsTheTarget : Prop :=
  ∀ (hi lo : Byte) (t : Addr), t.toNat = 256 * hi.toNat + lo.toNat →
    (∀ map : Config.OpcodeMap, encodeWith map (.jmp t) = [map.jmp, hi, lo]) ∧
    ∀ (s : State) (ipc : Pc), s.pc = ipc + 3 →
      (t.toNat < s.params.memorySize → exec (.jmp t) s = .next { s with pc := BitVec.ofNat 17 t.toNat }) ∧
      (s.params.memorySize ≤ t.toNat → exec (.jmp t) s = .next (faulted s .jumpAddress ipc t.toNat))

/-- JZ (42_control_flow.md R205, R206, R207): the branch is taken if and only if the register is zero; the register index is
checked first (92 D8), then the address, taken or not. The record is 92 D7 and D13. -/
def Obligations.JzBranchesOnZero : Prop :=
  ∀ (hi lo : Byte) (t : Addr), t.toNat = 256 * hi.toNat + lo.toNat →
    (∀ (map : Config.OpcodeMap) reg, encodeWith map (.jz reg t) = [map.jz, reg, hi, lo]) ∧
    ∀ (reg : Byte) (s : State) (ipc : Pc), s.pc = ipc + 4 →
      (¬ IsRegister s reg → exec (.jz reg t) s = .next (faulted s .registerIndex ipc reg.toNat)) ∧
      (IsRegister s reg → s.params.memorySize ≤ t.toNat →
        exec (.jz reg t) s = .next (faulted s .jumpAddress ipc t.toNat)) ∧
      (IsRegister s reg → t.toNat < s.params.memorySize →
        ((s.x reg).toNat = 0 → exec (.jz reg t) s = .next { s with pc := BitVec.ofNat 17 t.toNat }) ∧
        ((s.x reg).toNat ≠ 0 → exec (.jz reg t) s = .next s))

/-- PUSH (43_stack.md R231; the check order is 92 D8, the record 92 D7 and D13). -/
def Obligations.PushWritesThenDecrements : Prop :=
  (∀ (map : Config.OpcodeMap) reg, encodeWith map (.push reg) = [map.push, reg]) ∧
  ∀ (reg : Byte) (s : State) (ipc : Pc), s.pc = ipc + 2 → s.stack.wf →
    (¬ IsRegister s reg → exec (.push reg) s = .next (faulted s .registerIndex ipc reg.toNat)) ∧
    (IsRegister s reg → s.sp.toNat = 0 → exec (.push reg) s = .next (faulted s .stackUnderflow ipc 0)) ∧
    (IsRegister s reg → s.sp.toNat ≠ 0 → ∃ t, exec (.push reg) s = .next t ∧
      t = { s with stack := t.stack, sp := t.sp } ∧ t.sp.toNat + 1 = s.sp.toNat ∧
      t.stackAt s.sp.toNat = s.x reg ∧ ∀ i, i ≠ s.sp.toNat → t.stackAt i = s.stackAt i)

/-- POP (43_stack.md R232; the check order is 92 D8, the record 92 D7 and D13): the popped cell keeps its byte. -/
def Obligations.PopIncrementsThenReads : Prop :=
  (∀ (map : Config.OpcodeMap) reg, encodeWith map (.pop reg) = [map.pop, reg]) ∧
  ∀ (reg : Byte) (s : State) (ipc : Pc), s.pc = ipc + 2 → s.params.wf = true → s.regs.length = s.params.numRegisters →
    (¬ IsRegister s reg → exec (.pop reg) s = .next (faulted s .registerIndex ipc reg.toNat)) ∧
    (IsRegister s reg → s.params.memorySize - 1 ≤ s.sp.toNat →
      exec (.pop reg) s = .next (faulted s .stackOverflow ipc s.sp.toNat)) ∧
    (IsRegister s reg → s.sp.toNat < s.params.memorySize - 1 → ∃ t, exec (.pop reg) s = .next t ∧
      t.sp.toNat = s.sp.toNat + 1 ∧
      RegisterWritten reg (s.stackAt (s.sp.toNat + 1)) { s with sp := t.sp } t)

/-- The arithmetic of the alu_unit (41_load_arith_print.md R162): unsigned; ADD, SUB and MUL keep the exact result modulo
256; DIV truncates; a divisor of 0 gives `dz` and no result. -/
def Obligations.AluKeepsExactResultsModulo256 : Prop :=
  ∀ a b : Byte,
    (∃ y, alu .add a b = some y ∧ y.toNat = (a.toNat + b.toNat) % 256) ∧
    (∃ y, alu .sub a b = some y ∧ (y.toNat : Int) = ((a.toNat : Int) - b.toNat) % 256) ∧
    (∃ y, alu .mul a b = some y ∧ y.toNat = (a.toNat * b.toNat) % 256) ∧
    (b.toNat ≠ 0 → ∃ y, alu .div a b = some y ∧ y.toNat = a.toNat / b.toNat ∧ aluDz .div b = false) ∧
    (b.toNat = 0 → alu .div a b = none ∧ aluDz .div b = true)

/-- The two stack faults keep the source's names (43_stack.md R235; 60_exceptions.md R267): STACK_UNDERFLOW is raised by
PUSH when `sp` is 0, STACK_OVERFLOW by POP when `sp >= MEMORY_SIZE-1`, and neither by anything else. -/
def Obligations.StackFaultsKeepTheSourceNames : Prop :=
  (∀ (reg : Byte) (s : State), IsRegister s reg → s.sp.toNat = 0 → ∃ t r, exec (.push reg) s = .next t ∧
    t.out = s.out ++ [.fault r] ∧ r.subcause = .stackUnderflow) ∧
  (∀ (reg : Byte) (s : State), IsRegister s reg → s.params.memorySize - 1 ≤ s.sp.toNat → ∃ t r, exec (.pop reg) s = .next t ∧
    t.out = s.out ++ [.fault r] ∧ r.subcause = .stackOverflow) ∧
  ∀ (i : Instr) (s t : State) (r : FaultRecord), exec i s = .next t → t.out = s.out ++ [.fault r] →
    (r.subcause = .stackUnderflow → (∃ reg, i = .push reg) ∧ s.sp.toNat = 0) ∧
    (r.subcause = .stackOverflow → (∃ reg, i = .pop reg) ∧ s.params.memorySize - 1 ≤ s.sp.toNat)

/-- DIVIDE_BY_ZERO, raised by DIV when the divisor register is 0, is the only arithmetic fault; overflow of ADD, SUB or MUL
is none (60_exceptions.md R266). -/
def Obligations.DivideByZeroIsTheOnlyArithmeticFault : Prop :=
  (∀ (a b d : Byte) (s : State), IsRegister s a → IsRegister s b → IsRegister s d → s.x b = 0 →
    ∃ t r, exec (.div a b d) s = .next t ∧ t.out = s.out ++ [.fault r] ∧ r.subcause = .divideByZero) ∧
  (∀ (i : Instr) (s t : State) (r : FaultRecord), exec i s = .next t → t.out = s.out ++ [.fault r] →
    r.cause = .arithmetic → r.subcause = .divideByZero ∧
      ∃ a b d : Byte, i = .div a b d ∧ IsRegister s b ∧ s.x b = 0) ∧
  ∀ (i : Instr) (s t : State), i.mnemonic ∈ [Mnemonic.add, .sub, .mul] → i.wf s.params = true → exec i s = .next t →
    t.out = s.out

/-! ### Frames -/

/-- LOAD, ADD, SUB, MUL and DIV: only the destination register may change; a fault changes no register. -/
def Obligations.RegisterWritingFrame : Prop :=
  ∀ (i : Instr) (s t : State), i.mnemonic ∈ [Mnemonic.load, .add, .sub, .mul, .div] → exec i s = .next t →
    (∀ q : Byte, destination i ≠ some q → t.x q = s.x q) ∧
    (∀ a, t.stackAt a = s.stackAt a) ∧ t.sp = s.sp ∧ t.pc = s.pc ∧ RestUnchanged s t ∧
    NoFaultOr s t (fun r => (∀ q, t.x q = s.x q) ∧ (r.subcause = .registerIndex ∨ r.subcause = .divideByZero))

/-- HALT, PRINT, JMP and JZ: no register, no stack cell and no byte of memory changes. HALT clears `running`, PRINT emits
one `Print` event, JMP and JZ may change `pc`. -/
def Obligations.NonStoringFrame : Prop :=
  ∀ (i : Instr) (s t : State), i.mnemonic ∈ [Mnemonic.halt, .print, .jmp, .jz] → exec i s = .next t →
    (∀ q, t.x q = s.x q) ∧ (∀ a, t.stackAt a = s.stackAt a) ∧ t.sp = s.sp ∧ RestUnchanged s t ∧
    (i.mnemonic = .halt ∨ i.mnemonic = .print → t.pc = s.pc) ∧
    match i with
    | .halt => t.running = false ∧ t.fault = s.fault ∧ t.out = s.out
    | .print _ => (t.running = s.running ∧ t.fault = s.fault ∧ ∃ v, t.out = s.out ++ [.print v]) ∨
        ∃ r, r.subcause = .registerIndex ∧ t.running = false ∧ t.fault = some r ∧ t.out = s.out ++ [.fault r]
    | _ => NoFaultOr s t (fun r => t.pc = s.pc ∧ (r.subcause = .registerIndex ∨ r.subcause = .jumpAddress))

/-- PUSH stores one byte, at the stack index `sp` holds before it, and changes `sp`; every other stack cell, every register
and every byte of memory is unchanged; a fault changes none of them. -/
def Obligations.PushFrame : Prop :=
  ∀ (reg : Byte) (s t : State), s.stack.wf → exec (.push reg) s = .next t →
    (∀ q, t.x q = s.x q) ∧ (∀ a, a ≠ s.sp.toNat → t.stackAt a = s.stackAt a) ∧ t.pc = s.pc ∧ RestUnchanged s t ∧
    NoFaultOr s t (fun r => t.sp = s.sp ∧ (∀ a, t.stackAt a = s.stackAt a) ∧
      (r.subcause = .registerIndex ∨ r.subcause = .stackUnderflow))

/-- POP stores nothing: every stack cell and every byte of memory is unchanged; only the destination register and `sp` may
change, and a fault changes neither. -/
def Obligations.PopFrame : Prop :=
  ∀ (reg : Byte) (s t : State), exec (.pop reg) s = .next t →
    (∀ q : Byte, reg ≠ q → t.x q = s.x q) ∧ (∀ a, t.stackAt a = s.stackAt a) ∧
    t.pc = s.pc ∧ RestUnchanged s t ∧
    NoFaultOr s t (fun r => t.sp = s.sp ∧ (∀ q, t.x q = s.x q) ∧
      (r.subcause = .registerIndex ∨ r.subcause = .stackOverflow))

/-- The register table of 10_state.md R34: an instruction writes no register but the one R34 gives it, and the value of a
register that R34 does not list as read changes nothing but that register itself; an instruction that faults (every fault
emits an event) writes no register. -/
def Obligations.RegisterAccessIsThatOfTheTable : Prop :=
  ∀ (i : Instr) (s t : State), exec i s = .next t →
    (∀ q : Byte, destination i ≠ some q → t.x q = s.x q) ∧
    (∀ q v : Byte, q ∉ sources i →
      exec i (s.setX q v) = .next t ∨ exec i (s.setX q v) = .next (t.setX q v)) ∧
    (t.out ≠ s.out → ∀ q, t.x q = s.x q)

/-! ### Faults -/

/-- Faults are precise (60_exceptions.md R270; the record is the spec's choice, 92 D7 and D13): a step that stops the run
other than by HALT writes no register, stack cell, `sp` or byte of memory; it clears `running`, records one fault at the
address of its opcode byte, and emits it. -/
def Obligations.FaultsArePrecise : Prop :=
  ∀ s t : State, Stepping s → ¬ AtHalt s → step s = .next t → t.running = false →
    t.regs = s.regs ∧ t.stack = s.stack ∧ t.sp = s.sp ∧ t.mem = s.mem ∧ t.commands = s.commands ∧
    ∃ r, r.atPc = some s.pc ∧ t.fault = some r ∧ t.out = s.out ++ [.fault r]

/-- `pc` after a fault (60_exceptions.md R272, which is the spec's choice 92 D9). -/
def Obligations.PcAfterAFault : Prop :=
  ∀ (s t : State) (r : FaultRecord), Stepping s → ¬ AtHalt s → step s = .next t → t.running = false →
    t.fault = some r →
    match r.subcause with
    | .fetchOpcode => t.pc = s.pc ∧ s.params.memorySize ≤ s.pc.toNat
    | .illegalOpcode => t.pc = s.pc + 1
    | .fetchOperand => t.pc.toNat = s.params.memorySize
    | .programTooLong => False
    | _ => ∃ i, At s i ∧ t.pc = s.pc + BitVec.ofNat 17 (1 + operandCount i.mnemonic)

/-- The faults a handler can raise (60_exceptions.md R268; the order of the checks is the spec's choice, 92 D8), at the
address of the instruction's opcode byte (R262). -/
def Obligations.HandlerFaultsAreThoseOfTheTable : Prop :=
  ∀ (i : Instr) (s t : State) (r : FaultRecord), exec i s = .next t → t.out = s.out ++ [.fault r] →
    (∀ ipc, s.pc = ipc + BitVec.ofNat 17 (1 + operandCount i.mnemonic) → r.atPc = some ipc) ∧
    r.subcause ∈
      match i.mnemonic with
      | .halt => []
      | .load => [Subcause.registerIndex]
      | .add => [Subcause.registerIndex]
      | .sub => [Subcause.registerIndex]
      | .mul => [Subcause.registerIndex]
      | .div => [Subcause.registerIndex, .divideByZero]
      | .jmp => [Subcause.jumpAddress]
      | .jz => [Subcause.registerIndex, .jumpAddress]
      | .push => [Subcause.registerIndex, .stackUnderflow]
      | .pop => [Subcause.registerIndex, .stackOverflow]
      | .print => [Subcause.registerIndex]

/-- The fault taxonomy (60_exceptions.md R261; the encoded numbers are the spec's choice, 92 D7). -/
def Obligations.CauseNumbers : Prop :=
  ∀ r : FaultRecord, r.cause.code =
    match r.subcause with
    | .programTooLong => 1
    | .fetchOpcode => 2
    | .fetchOperand => 2
    | .registerIndex => 2
    | .jumpAddress => 2
    | .divideByZero => 3
    | .stackUnderflow => 4
    | .stackOverflow => 4
    | .illegalOpcode => 5

/-! ### The stack over several instructions -/

/-- N pushes of valid registers followed by N pops in reverse order raise no fault and restore every register and `sp`
(43_stack.md R233, derived there from R231 and R232). The premises, the canonical form of the stack's storage
(notes/assumptions 19) and `sp` below MEMORY_SIZE, hold in every state of a run (`EveryStepKeepsTheInvariant`). -/
def Obligations.PushesThenPopsRestoreInLifoOrder : Prop :=
  ∀ (rs : List Byte) (s : State), (∀ r ∈ rs, IsRegister s r) → rs.length ≤ s.sp.toNat → s.stack.wf →
    s.sp.toNat < s.params.memorySize →
    ∃ t, execAll (rs.map Instr.push ++ rs.reverse.map Instr.pop) s = .next t ∧ t = { s with stack := t.stack } ∧
      ∀ i, (s.sp.toNat < i ∨ i + rs.length ≤ s.sp.toNat) → t.stackAt i = s.stackAt i

/-- From the empty stack exactly MEMORY_SIZE-1 pushes succeed; they fill `S[MEMORY_SIZE-1]` down to `S[1]`, and the next one
faults with STACK_UNDERFLOW at `sp = 0` (43_stack.md R234, derived there from R231; 255 pushes by default). -/
def Obligations.StackHoldsOneByteLessThanItsSize : Prop :=
  ∀ (rs : List Byte) (s : State), (∀ r ∈ rs, IsRegister s r) → rs.length = s.params.memorySize - 1 →
    s.sp.toNat = s.params.memorySize - 1 → s.stack.wf →
    ∃ t, execAll (rs.map Instr.push) s = .next t ∧ t = { s with stack := t.stack, sp := 0 } ∧
      (∀ (k : Nat) (hk : k < rs.length), t.stackAt (s.params.memorySize - 1 - k) = s.x rs[k]) ∧
      t.stackAt 0 = s.stackAt 0 ∧
      ∀ (r : Byte) (ipc : Pc), IsRegister s r → t.pc = ipc + 2 →
        exec (.push r) t = .next (faulted t .stackUnderflow ipc 0)

/-! ### Host commands -/

/-- The values of 10_state.md R52 in the state after INIT or RESET, `sp` apart. The record `fault` is the spec's choice, 92
D13. Nothing is said of the latches, which R52 leaves unspecified. -/
def Sys2Proof.Spec.Zeroed (t : State) : Prop :=
  (∀ a, t.mem.read a = 0) ∧ t.regs.length = t.params.numRegisters ∧ (∀ r, t.x r = 0) ∧ (∀ i, t.stackAt i = 0) ∧
    t.pc.toNat = 0 ∧ t.running = false ∧ t.fault = none

/-- What the host's side keeps over INIT and RESET: the parameters (00_scope.md R8), the channel, which is not cleared and
gets no event, and the results (60_exceptions.md R290: none). -/
def Sys2Proof.Spec.Recreated (rest : List HostCommand) (s t : State) : Prop :=
  t.params = s.params ∧ t.seq = .idle ∧ t.out = s.out ∧ t.commands = rest ∧ t.replies = s.replies

/-- What reset leaves (10_state.md R52, column "after INIT"), with the default sizes of 00_scope.md R7 and the spec's choices of
the map (92 D1) and of SP_AFTER_RESET (92 D10). -/
def Obligations.ResetValues : Prop :=
  Zeroed State.reset ∧ State.reset.sp.toNat = 255 ∧ State.reset.regs.length = 8 ∧
    State.reset.params = ⟨256, 8, opcodeMap, 255⟩

/-- An instance is built with every legal choice of the parameters, fresh, and with no other (00_scope.md R7; the limits are
the spec's choice 92 D5, and the refusal 93 U13). -/
def Obligations.EveryLegalInstanceIsBuilt : Prop :=
  ∀ p : Config.Params,
    (p.wf = true → ∃ t, build p = .next t ∧ t.params = p ∧ Zeroed t ∧ t.sp.toNat = p.memorySize - 1 ∧ t.seq = .idle) ∧
    (p.wf = false → build p = .refused .illFormedParameters)

/-- INIT and RESET (70_reset_and_hazards.md R302 and R304, the latter under either value of SP_AFTER_RESET, a parameter by
the spec's choice 92 D10): every piece of state at its value, no event emitted, the channel not cleared. -/
def Obligations.InitAndResetZeroTheBlock : Prop :=
  ∀ (s : State) rest, s.params.wf = true → s.seq = .idle →
    (s.commands = .init :: rest → ∃ t, step s = .next t ∧ Zeroed t ∧ Recreated rest s t ∧
      t.sp.toNat = s.params.memorySize - 1) ∧
    (s.commands = .reset :: rest → ∃ t, step s = .next t ∧ Zeroed t ∧ Recreated rest s t ∧
      t.sp.toNat = s.params.spAfterReset)

/-- LOAD (70_reset_and_hazards.md R306, R307; that nothing else changes is the spec's choice, 92 D11): up to MEMORY_SIZE
bytes are copied to offset 0 and `running` is set; the tail of `M` and everything else stay. -/
def Obligations.LoadCommandCopiesTheProgram : Prop :=
  ∀ (s : State) (p : List Byte) rest, s.seq = .idle → s.commands = .load p :: rest → p.length ≤ s.params.memorySize →
    s.mem.wf → ∃ t, step s = .next t ∧
      (∀ (a : Nat) (h : a < p.length), t.mem.read a = p[a]) ∧ (∀ a, p.length ≤ a → t.mem.read a = s.mem.read a) ∧
      t = { s with mem := t.mem, running := true, commands := rest, replies := s.replies ++ [.loadOk] }

/-- A program longer than MEMORY_SIZE is refused (60_exceptions.md R263; the record is the spec's choice, 92 D7): no state of
the block changes, `running` and `fault` included; the host is told, and one CAPACITY event is emitted. -/
def Obligations.LoadCommandRefusesALongProgram : Prop :=
  ∀ (s : State) (p : List Byte) rest, s.seq = .idle → s.commands = .load p :: rest →
    s.params.memorySize < p.length →
    step s = .next { s with
      out := s.out ++ [.fault ⟨.programTooLong, none, p.length⟩]
      commands := rest
      replies := s.replies ++ [.loadRefused] }

/-- A host command during an EXECUTE has no move (60_exceptions.md R291, which is the spec's choice 92 D18): it is refused, and
a step of the loop leaves the host's pending commands alone; on an idle block the command is performed. -/
def Obligations.NoCommandDuringExecute : Prop :=
  (∀ (c : HostCommand) (s : State), s.seq = .fetchOp → issue c s = .refused .commandDuringExecute) ∧
  (∀ s t : State, s.seq = .fetchOp → step s = .next t → t.commands = s.commands) ∧
  ∀ (c : HostCommand) (s : State), s.seq = .idle → issue c s = .next (perform c s)

/-- RESET, LOAD, EXECUTE on a used block behaves as LOAD, EXECUTE on a fresh one with the same parameters, step for step: the
same state to a program and the same events (70_reset_and_hazards.md R309, for SP_AFTER_RESET = MEMORY_SIZE-1, the default by
92 D10). -/
def Obligations.ResetMakesTheBlockFresh : Prop :=
  ∀ (s : State) (p : List Byte) (k : Nat), s.seq = .idle → s.commands = [.reset, .load p, .execute] →
    s.params.spAfterReset = s.params.memorySize - 1 →
    ∃ u f, core.run (k + 1) s = .next u ∧
      core.run k { State.fresh s.params with commands := [.load p, .execute] } = .next f ∧
      SameToProgram u f ∧ u.out = s.out ++ f.out ∧ u.replies = s.replies ++ f.replies

/-! ### Whole-machine rules -/

/-- The invariant holds at reset, and in every instance that is built. -/
def Obligations.ResetMeetsTheInvariant : Prop :=
  Inv State.reset ∧ ∀ (p : Config.Params) (s : State), build p = .next s → Inv s

/-- Every step keeps the invariant: legal parameters (00_scope.md R7), canonical storage inside its bounds, `S[0]` never
written (10_state.md R48), NUM_REGISTERS registers (R32), `pc` at most MEMORY_SIZE (R40) and `sp` below it (R47), FETCH_OP
only while `running` (40 R144), the recorded fault emitted (R51, the record by 92 D13). -/
def Obligations.EveryStepKeepsTheInvariant : Prop :=
  ∀ s t : State, Inv s → step s = .next t → Inv t

/-- The parameters are fixed when the instance is built, and no array changes its length (00_scope.md R8); the length of `M` and
of `S` is MEMORY_SIZE, so it does not change either. -/
def Obligations.NothingChangesTheParameters : Prop :=
  ∀ s t : State, step s = .next t →
    t.params = s.params ∧ (s.regs.length = s.params.numRegisters → t.regs.length = s.params.numRegisters)

/-- `M` is read-only while EXECUTE runs; only INIT, LOAD and RESET write it (20_memory.md R73). -/
def Obligations.OnlyHostCommandsWriteTheMemoryImage : Prop :=
  ∀ s t : State, step s = .next t →
    (s.seq = .fetchOp → t.mem = s.mem) ∧
    (t.mem ≠ s.mem → s.seq = .idle ∧ ∃ c rest, s.commands = c :: rest ∧
      (c = .init ∨ c = .reset ∨ ∃ p, c = .load p))

/-- `S` is written only by PUSH; INIT and RESET zero it (10_state.md R45; 20_memory.md R72). -/
def Obligations.OnlyPushWritesTheStack : Prop :=
  ∀ s t : State, s.params.wf = true → step s = .next t → t.stack ≠ s.stack →
    (s.seq = .fetchOp ∧ ∃ reg, At s (.push reg)) ∨
    (s.seq = .idle ∧ (∀ i, t.stackAt i = 0) ∧ ∃ rest, s.commands = .init :: rest ∨ s.commands = .reset :: rest)

/-- Who writes `running` (10_state.md R42): only a successful LOAD sets it; only HALT, a fault, INIT and RESET clear it. -/
def Obligations.RunningIsWrittenOnlyAsListed : Prop :=
  ∀ s t : State, s.params.wf = true → step s = .next t →
    (s.running = false → t.running = true →
      s.seq = .idle ∧ ∃ p rest, s.commands = .load p :: rest ∧ p.length ≤ s.params.memorySize) ∧
    (s.running = true → t.running = false →
      (s.seq = .fetchOp ∧ (AtHalt s ∨ ∃ r, t.fault = some r ∧ t.out = s.out ++ [.fault r])) ∨
      (s.seq = .idle ∧ ∃ rest, s.commands = .init :: rest ∨ s.commands = .reset :: rest))

/-- The fault record is cleared only by INIT and RESET, and a new record is always a fault just emitted (10_state.md R51; a
record at all is the spec's choice, 92 D13). -/
def Obligations.FaultRecordIsSticky : Prop :=
  ∀ s t : State, step s = .next t → t.fault ≠ s.fault →
    (t.fault = none ∧ s.seq = .idle ∧ ∃ rest, s.commands = .init :: rest ∨ s.commands = .reset :: rest) ∨
    (s.seq = .fetchOp ∧ ∃ r, t.fault = some r ∧ t.out = s.out ++ [.fault r])

/-- The diagnostic channel is append-only, at most one event a step (60_exceptions.md R280). -/
def Obligations.ChannelIsAppendOnly : Prop :=
  ∀ s t : State, step s = .next t → t.out = s.out ∨ ∃ e, t.out = s.out ++ [e]

/-- No program can observe the latches, the channel or the results given to the host (10_state.md R50; 60 R280): two states
that differ only there make the same step, with the same events and results. -/
def Obligations.LatchesAndChannelAreUnobservable : Prop :=
  ∀ s t s' : State, SameToProgram s t → step s = .next s' →
    ∃ t', step t = .next t' ∧ SameToProgram s' t' ∧
      (∃ es, s'.out = s.out ++ es ∧ t'.out = t.out ++ es) ∧
      ∃ rs, s'.replies = s.replies ++ rs ∧ t'.replies = t.replies ++ rs

/-- A halted block waits: with no command pending, a step in IDLE changes nothing (60_exceptions.md R286). -/
def Obligations.HaltedStateSurvives : Prop :=
  ∀ (s : State) (k : Nat), s.seq = .idle → s.commands = [] → core.run k s = .next s

/-- A run in progress that has ended under some fuel ends the same way under more, so "out of fuel" is neither halt nor fault
(40_execute_loop.md R142, R143, which rest on the spec's choices 92 D13 and D20). For a state in IDLE, where no run is in
progress, both answers are the model's choice (notes/assumptions 26). -/
def Obligations.MoreFuelChangesNoEndedRun : Prop :=
  ∀ (s t : State) (k j : Nat), k ≤ j →
    (runExecute k s = .next (.halted t) → runExecute j s = .next (.halted t) ∧ t.fault = none) ∧
    (runExecute k s = .next (.faulted t) → runExecute j s = .next (.faulted t) ∧ t.fault ≠ none)

/-- A JMP to its own address never ends and has no effect but on the latches (42_control_flow.md R201; 40_execute_loop.md
R142; fuel is the spec's choice, 92 D20). -/
def Obligations.SelfJumpNeverEnds : Prop :=
  ∀ (s : State) (t : Addr) (k : Nat), Stepping s → At s (.jmp t) → t.toNat = s.pc.toNat →
    ∃ ir, runExecute k s = .next (.outOfFuel { s with ir := ir })

/-- The canonical form determines the storage: two storages in it that read alike are equal data (the model's own
representation of the arrays `M` and `S`, notes/assumptions 19). -/
def Obligations.CanonicalStorageIsDeterminedByItsReads : Prop :=
  ∀ m n : Memory, m.wf → n.wf → (∀ a, m.read a = n.read a) → m = n
end

