-- ==== Sys2Proof/Laws/Memory.lean ====
section
/-! SUPPORT. The laws of byte-addressed storage: read after write, and every operation keeps the canonical form. -/

namespace Sys2Proof.Machine.Memory

@[simp] theorem read_nil (a : Nat) : Memory.read [] a = 0 := rfl

/-- Reading below every listed address gives the unlisted byte. -/
theorem read_of_lt (m : Memory) (a : Nat) (h : ∀ c ∈ m, a < c.1) : m.read a = 0 := by
  induction m with
  | nil => rfl
  | cons c rest ih =>
    obtain ⟨b, w⟩ := c
    have hb : a < b := h (b, w) (by simp)
    simp only [Memory.read, if_neg (by omega : ¬ b = a)]
    exact ih fun c hc => h c (by simp [hc])

/-- Reading the head's address, or another one, of a nonempty storage. -/
theorem read_cons (b : Nat) (w : Byte) (rest : Memory) (a : Nat) :
    Memory.read ((b, w) :: rest) a = if b = a then w else Memory.read rest a := rfl

/-- Read after write, in storage whose addresses rise. -/
theorem read_write (m : Memory) (a b : Nat) (v : Byte) (h : m.Pairwise fun c d => c.1 < d.1) :
    (m.write a v).read b = if a = b then v else m.read b := by
  induction m with
  | nil =>
    unfold Memory.write
    by_cases hv : v = unlistedByte
    · subst hv; simp [Memory.read, unlistedByte]
    · simp [hv, Memory.read]
  | cons c rest ih =>
    obtain ⟨k, w⟩ := c
    have hrest := (List.pairwise_cons.mp h).2
    have hlow : ∀ c ∈ rest, k < c.1 := (List.pairwise_cons.mp h).1
    unfold Memory.write
    by_cases h1 : a < k
    · have hz : Memory.read ((k, w) :: rest) a = 0 := by
        apply read_of_lt
        intro c hc
        rcases List.mem_cons.mp hc with rfl | hc
        · exact h1
        · exact Nat.lt_trans h1 (hlow c hc)
      by_cases hv : v = unlistedByte
      · simp only [h1, hv, if_true]
        by_cases hab : a = b
        · subst hab; rw [if_pos rfl]; exact hz
        · rw [if_neg hab]
      · simp only [h1, hv, if_true, if_false, read_cons]
    · by_cases h2 : a = k
      · subst h2
        by_cases hv : v = unlistedByte
        · subst hv
          simp only [Nat.lt_irrefl, if_true, if_false]
          by_cases hab : a = b
          · subst hab; rw [if_pos rfl]; exact read_of_lt rest a hlow
          · rw [if_neg hab, read_cons, if_neg hab]
        · simp only [Nat.lt_irrefl, hv, if_true, if_false, read_cons]
          by_cases hab : a = b <;> simp [hab]
      · simp only [h1, h2, if_false, read_cons, ih hrest]
        by_cases hkb : k = b
        · subst hkb; simp [h2]
        · simp [hkb]

@[simp] theorem read_write_same (m : Memory) (a : Nat) (v : Byte) (h : m.wf) : (m.write a v).read a = v := by
  rw [read_write m a a v h.1, if_pos rfl]

theorem read_write_other (m : Memory) (a b : Nat) (v : Byte) (h : m.wf) (hab : b ≠ a) :
    (m.write a v).read b = m.read b := by
  rw [read_write m a b v h.1, if_neg (Ne.symm hab)]

/-- A cell of a written storage is the written one or an old one at another address. -/
theorem mem_write (m : Memory) (a : Nat) (v : Byte) (c : Host.Cell) (hc : c ∈ m.write a v) :
    (c = (a, v) ∧ v ≠ unlistedByte) ∨ c ∈ m := by
  induction m with
  | nil =>
    unfold Memory.write at hc
    by_cases hv : v = unlistedByte
    · simp [hv] at hc
    · simp only [hv, if_false, List.mem_singleton] at hc
      exact .inl ⟨hc, hv⟩
  | cons d rest ih =>
    obtain ⟨k, w⟩ := d
    unfold Memory.write at hc
    by_cases hv : v = unlistedByte
    · by_cases h1 : a < k
      · simp only [hv, h1, if_true] at hc; exact .inr hc
      · by_cases h2 : a = k
        · simp only [hv, h2, Nat.lt_irrefl, if_true, if_false] at hc; exact .inr (List.mem_cons_of_mem _ hc)
        · simp only [h1, h2, if_false] at hc
          rcases List.mem_cons.mp hc with rfl | hc
          · exact .inr (by simp)
          · exact (ih hc).imp_right (List.mem_cons_of_mem _)
    · by_cases h1 : a < k
      · simp only [hv, h1, if_true, if_false] at hc
        rcases List.mem_cons.mp hc with rfl | hc
        · exact .inl ⟨rfl, hv⟩
        · exact .inr hc
      · by_cases h2 : a = k
        · subst h2
          simp only [hv, Nat.lt_irrefl, if_true, if_false] at hc
          rcases List.mem_cons.mp hc with rfl | hc
          · exact .inl ⟨rfl, hv⟩
          · exact .inr (List.mem_cons_of_mem _ hc)
        · simp only [h1, h2, if_false] at hc
          rcases List.mem_cons.mp hc with rfl | hc
          · exact .inr (by simp)
          · exact (ih hc).imp_right (List.mem_cons_of_mem _)

/-- A write keeps the addresses strictly rising. -/
theorem write_rising (m : Memory) (a : Nat) (v : Byte) (h : m.Pairwise fun c d => c.1 < d.1) :
    (m.write a v).Pairwise fun c d => c.1 < d.1 := by
  induction m with
  | nil =>
    unfold Memory.write
    by_cases hv : v = unlistedByte <;> simp [hv]
  | cons c rest ih =>
    obtain ⟨k, w⟩ := c
    obtain ⟨hlow, hrest⟩ := List.pairwise_cons.mp h
    unfold Memory.write
    by_cases h1 : a < k
    · by_cases hv : v = unlistedByte
      · simpa only [h1, hv, if_true] using h
      · simp only [h1, hv, if_true, if_false]
        refine List.pairwise_cons.mpr ⟨fun d hd => ?_, h⟩
        rcases List.mem_cons.mp hd with rfl | hd
        · exact h1
        · exact Nat.lt_trans h1 (hlow d hd)
    · by_cases h2 : a = k
      · subst h2
        by_cases hv : v = unlistedByte
        · simpa only [hv, Nat.lt_irrefl, if_true, if_false] using hrest
        · simp only [hv, Nat.lt_irrefl, if_true, if_false]
          exact List.pairwise_cons.mpr ⟨hlow, hrest⟩
      · simp only [h1, h2, if_false]
        refine List.pairwise_cons.mpr ⟨fun d hd => ?_, ih hrest⟩
        rcases mem_write rest a v d hd with ⟨rfl, -⟩ | hd
        · show k < a; omega
        · exact hlow d hd

/-- The empty storage is in canonical form. -/
theorem nil_wf : Memory.wf [] := ⟨List.Pairwise.nil, by simp⟩

/-- A write keeps the canonical form. -/
theorem write_wf (m : Memory) (a : Nat) (v : Byte) (h : m.wf) : (m.write a v).wf := by
  refine ⟨write_rising m a v h.1, fun c hc => ?_⟩
  rcases mem_write m a v c hc with ⟨rfl, hv⟩ | hc
  · exact hv
  · exact h.2 c hc

/-- Writing several bytes keeps the canonical form. -/
theorem writeBytes_wf (bs : List Byte) : ∀ (m : Memory) (a : Nat), m.wf → (m.writeBytes a bs).wf := by
  induction bs with
  | nil => intro m a h; exact h
  | cons v vs ih => intro m a h; exact ih _ _ (write_wf m a v h)

/-- The empty storage lists nothing past a size. -/
theorem nil_within (size : Nat) : Memory.within [] size := by simp

/-- A write below a size lists nothing past it. -/
theorem write_within (m : Memory) (size a : Nat) (v : Byte) (h : m.within size) (ha : a < size) :
    (m.write a v).within size := by
  intro c hc
  rcases mem_write m a v c hc with ⟨rfl, -⟩ | hc
  · exact ha
  · exact h c hc

/-- Writing bytes that end by a size lists nothing past it. -/
theorem writeBytes_within (bs : List Byte) : ∀ (m : Memory) (size a : Nat), m.within size → a + bs.length ≤ size →
    (m.writeBytes a bs).within size := by
  induction bs with
  | nil => intro m size a h _; exact h
  | cons v vs ih =>
    intro m size a h ha
    simp only [List.length_cons] at ha
    exact ih _ _ _ (write_within m size a v h (by omega)) (by omega)

/-- Read after writing several bytes: the byte written there, or the old one. -/
theorem read_writeBytes (bs : List Byte) : ∀ (m : Memory) (a b : Nat), m.Pairwise (fun c d => c.1 < d.1) →
    (m.writeBytes a bs).read b = if h : a ≤ b ∧ b - a < bs.length then bs[b - a] else m.read b := by
  induction bs with
  | nil => intro m a b _; simp [Memory.writeBytes]
  | cons v vs ih =>
    intro m a b h
    rw [Memory.writeBytes, ih _ _ _ (write_rising m a v h), read_write m a b v h]
    by_cases h1 : a = b
    · subst h1
      simp only [List.length_cons, Nat.sub_self, if_true, List.getElem_cons_zero]
      rw [dif_neg (by omega), dif_pos (by omega)]
    · by_cases h2 : a + 1 ≤ b ∧ b - (a + 1) < vs.length
      · rw [dif_pos h2, dif_pos ⟨by omega, by simp only [List.length_cons]; omega⟩]
        have : b - a = b - (a + 1) + 1 := by omega
        simp only [this, List.getElem_cons_succ]
      · rw [dif_neg h2, dif_neg, if_neg h1]
        rintro ⟨h3, h4⟩
        simp only [List.length_cons] at h4
        exact h2 ⟨by omega, by omega⟩

/-- Placing a table word keeps the canonical form. -/
theorem placeTableWord_wf (m : Memory) (size site nbits w : Nat) (h : m.wf) :
    (m.placeTableWord size site nbits w).wf := writeBytes_wf _ _ _ h

/-- Placing a table word lists nothing past the size. -/
theorem placeTableWord_within (m : Memory) (size site nbits w : Nat) (h : m.within size) (hs : site ≤ size) :
    (m.placeTableWord size site nbits w).within size := by
  apply writeBytes_within _ _ _ _ h
  rw [List.length_take]
  omega

end Sys2Proof.Machine.Memory
end

