-- ==== Sys2Proof/Laws/State.lean ====
section
/-! SUPPORT. One lemma for each field and each update of the state, true by rfl, so that no later proof unfolds a record
update. -/

namespace Sys2Proof.Machine.State

variable (s : State)

@[simp] theorem setRunning_params : s.setRunning.params = s.params := rfl
@[simp] theorem setRunning_mem : s.setRunning.mem = s.mem := rfl
@[simp] theorem setRunning_regs : s.setRunning.regs = s.regs := rfl
@[simp] theorem setRunning_stack : s.setRunning.stack = s.stack := rfl
@[simp] theorem setRunning_pc : s.setRunning.pc = s.pc := rfl
@[simp] theorem setRunning_sp : s.setRunning.sp = s.sp := rfl
@[simp] theorem setRunning_running : s.setRunning.running = true := rfl
@[simp] theorem setRunning_fault : s.setRunning.fault = s.fault := rfl
@[simp] theorem setRunning_ir : s.setRunning.ir = s.ir := rfl
@[simp] theorem setRunning_seq : s.setRunning.seq = s.seq := rfl
@[simp] theorem setRunning_out : s.setRunning.out = s.out := rfl
@[simp] theorem setRunning_commands : s.setRunning.commands = s.commands := rfl
@[simp] theorem setRunning_replies : s.setRunning.replies = s.replies := rfl
@[simp] theorem setRunning_draws : s.setRunning.draws = s.draws := rfl

@[simp] theorem clearRunning_params : s.clearRunning.params = s.params := rfl
@[simp] theorem clearRunning_mem : s.clearRunning.mem = s.mem := rfl
@[simp] theorem clearRunning_regs : s.clearRunning.regs = s.regs := rfl
@[simp] theorem clearRunning_stack : s.clearRunning.stack = s.stack := rfl
@[simp] theorem clearRunning_pc : s.clearRunning.pc = s.pc := rfl
@[simp] theorem clearRunning_sp : s.clearRunning.sp = s.sp := rfl
@[simp] theorem clearRunning_running : s.clearRunning.running = false := rfl
@[simp] theorem clearRunning_fault : s.clearRunning.fault = s.fault := rfl
@[simp] theorem clearRunning_ir : s.clearRunning.ir = s.ir := rfl
@[simp] theorem clearRunning_seq : s.clearRunning.seq = s.seq := rfl
@[simp] theorem clearRunning_out : s.clearRunning.out = s.out := rfl
@[simp] theorem clearRunning_commands : s.clearRunning.commands = s.commands := rfl
@[simp] theorem clearRunning_replies : s.clearRunning.replies = s.replies := rfl
@[simp] theorem clearRunning_draws : s.clearRunning.draws = s.draws := rfl

@[simp] theorem emit_params (e : Event) : (s.emit e).params = s.params := rfl
@[simp] theorem emit_mem (e : Event) : (s.emit e).mem = s.mem := rfl
@[simp] theorem emit_regs (e : Event) : (s.emit e).regs = s.regs := rfl
@[simp] theorem emit_stack (e : Event) : (s.emit e).stack = s.stack := rfl
@[simp] theorem emit_pc (e : Event) : (s.emit e).pc = s.pc := rfl
@[simp] theorem emit_sp (e : Event) : (s.emit e).sp = s.sp := rfl
@[simp] theorem emit_running (e : Event) : (s.emit e).running = s.running := rfl
@[simp] theorem emit_fault (e : Event) : (s.emit e).fault = s.fault := rfl
@[simp] theorem emit_ir (e : Event) : (s.emit e).ir = s.ir := rfl
@[simp] theorem emit_seq (e : Event) : (s.emit e).seq = s.seq := rfl
@[simp] theorem emit_out (e : Event) : (s.emit e).out = s.out ++ [e] := rfl
@[simp] theorem emit_commands (e : Event) : (s.emit e).commands = s.commands := rfl
@[simp] theorem emit_replies (e : Event) : (s.emit e).replies = s.replies := rfl
@[simp] theorem emit_draws (e : Event) : (s.emit e).draws = s.draws := rfl

@[simp] theorem setX_params (r : Byte) (v : Byte) : (s.setX r v).params = s.params := rfl
@[simp] theorem setX_mem (r : Byte) (v : Byte) : (s.setX r v).mem = s.mem := rfl
@[simp] theorem setX_regs (r : Byte) (v : Byte) : (s.setX r v).regs = s.regs.set r.toNat v := rfl
@[simp] theorem setX_stack (r : Byte) (v : Byte) : (s.setX r v).stack = s.stack := rfl
@[simp] theorem setX_pc (r : Byte) (v : Byte) : (s.setX r v).pc = s.pc := rfl
@[simp] theorem setX_sp (r : Byte) (v : Byte) : (s.setX r v).sp = s.sp := rfl
@[simp] theorem setX_running (r : Byte) (v : Byte) : (s.setX r v).running = s.running := rfl
@[simp] theorem setX_fault (r : Byte) (v : Byte) : (s.setX r v).fault = s.fault := rfl
@[simp] theorem setX_ir (r : Byte) (v : Byte) : (s.setX r v).ir = s.ir := rfl
@[simp] theorem setX_seq (r : Byte) (v : Byte) : (s.setX r v).seq = s.seq := rfl
@[simp] theorem setX_out (r : Byte) (v : Byte) : (s.setX r v).out = s.out := rfl
@[simp] theorem setX_commands (r : Byte) (v : Byte) : (s.setX r v).commands = s.commands := rfl
@[simp] theorem setX_replies (r : Byte) (v : Byte) : (s.setX r v).replies = s.replies := rfl
@[simp] theorem setX_draws (r : Byte) (v : Byte) : (s.setX r v).draws = s.draws := rfl

@[simp] theorem pcIncrement_params : s.pcIncrement.params = s.params := rfl
@[simp] theorem pcIncrement_mem : s.pcIncrement.mem = s.mem := rfl
@[simp] theorem pcIncrement_regs : s.pcIncrement.regs = s.regs := rfl
@[simp] theorem pcIncrement_stack : s.pcIncrement.stack = s.stack := rfl
@[simp] theorem pcIncrement_pc : s.pcIncrement.pc = s.pc + 1 := rfl
@[simp] theorem pcIncrement_sp : s.pcIncrement.sp = s.sp := rfl
@[simp] theorem pcIncrement_running : s.pcIncrement.running = s.running := rfl
@[simp] theorem pcIncrement_fault : s.pcIncrement.fault = s.fault := rfl
@[simp] theorem pcIncrement_ir : s.pcIncrement.ir = s.ir := rfl
@[simp] theorem pcIncrement_seq : s.pcIncrement.seq = s.seq := rfl
@[simp] theorem pcIncrement_out : s.pcIncrement.out = s.out := rfl
@[simp] theorem pcIncrement_commands : s.pcIncrement.commands = s.commands := rfl
@[simp] theorem pcIncrement_replies : s.pcIncrement.replies = s.replies := rfl
@[simp] theorem pcIncrement_draws : s.pcIncrement.draws = s.draws := rfl

@[simp] theorem pcLoad_params (t : Addr) : (s.pcLoad t).params = s.params := rfl
@[simp] theorem pcLoad_mem (t : Addr) : (s.pcLoad t).mem = s.mem := rfl
@[simp] theorem pcLoad_regs (t : Addr) : (s.pcLoad t).regs = s.regs := rfl
@[simp] theorem pcLoad_stack (t : Addr) : (s.pcLoad t).stack = s.stack := rfl
@[simp] theorem pcLoad_pc (t : Addr) : (s.pcLoad t).pc = t.setWidth 17 := rfl
@[simp] theorem pcLoad_sp (t : Addr) : (s.pcLoad t).sp = s.sp := rfl
@[simp] theorem pcLoad_running (t : Addr) : (s.pcLoad t).running = s.running := rfl
@[simp] theorem pcLoad_fault (t : Addr) : (s.pcLoad t).fault = s.fault := rfl
@[simp] theorem pcLoad_ir (t : Addr) : (s.pcLoad t).ir = s.ir := rfl
@[simp] theorem pcLoad_seq (t : Addr) : (s.pcLoad t).seq = s.seq := rfl
@[simp] theorem pcLoad_out (t : Addr) : (s.pcLoad t).out = s.out := rfl
@[simp] theorem pcLoad_commands (t : Addr) : (s.pcLoad t).commands = s.commands := rfl
@[simp] theorem pcLoad_replies (t : Addr) : (s.pcLoad t).replies = s.replies := rfl
@[simp] theorem pcLoad_draws (t : Addr) : (s.pcLoad t).draws = s.draws := rfl

@[simp] theorem latchOp_params (v : Byte) : (s.latchOp v).params = s.params := rfl
@[simp] theorem latchOp_mem (v : Byte) : (s.latchOp v).mem = s.mem := rfl
@[simp] theorem latchOp_regs (v : Byte) : (s.latchOp v).regs = s.regs := rfl
@[simp] theorem latchOp_stack (v : Byte) : (s.latchOp v).stack = s.stack := rfl
@[simp] theorem latchOp_pc (v : Byte) : (s.latchOp v).pc = s.pc := rfl
@[simp] theorem latchOp_sp (v : Byte) : (s.latchOp v).sp = s.sp := rfl
@[simp] theorem latchOp_running (v : Byte) : (s.latchOp v).running = s.running := rfl
@[simp] theorem latchOp_fault (v : Byte) : (s.latchOp v).fault = s.fault := rfl
@[simp] theorem latchOp_ir (v : Byte) : (s.latchOp v).ir = { s.ir with op := v } := rfl
@[simp] theorem latchOp_seq (v : Byte) : (s.latchOp v).seq = s.seq := rfl
@[simp] theorem latchOp_out (v : Byte) : (s.latchOp v).out = s.out := rfl
@[simp] theorem latchOp_commands (v : Byte) : (s.latchOp v).commands = s.commands := rfl
@[simp] theorem latchOp_replies (v : Byte) : (s.latchOp v).replies = s.replies := rfl
@[simp] theorem latchOp_draws (v : Byte) : (s.latchOp v).draws = s.draws := rfl

@[simp] theorem raiseFault_params (sub : Subcause) (ipc : Pc) (value : Nat) : (s.raiseFault sub ipc value).params = s.params := rfl
@[simp] theorem raiseFault_mem (sub : Subcause) (ipc : Pc) (value : Nat) : (s.raiseFault sub ipc value).mem = s.mem := rfl
@[simp] theorem raiseFault_regs (sub : Subcause) (ipc : Pc) (value : Nat) : (s.raiseFault sub ipc value).regs = s.regs := rfl
@[simp] theorem raiseFault_stack (sub : Subcause) (ipc : Pc) (value : Nat) : (s.raiseFault sub ipc value).stack = s.stack := rfl
@[simp] theorem raiseFault_pc (sub : Subcause) (ipc : Pc) (value : Nat) : (s.raiseFault sub ipc value).pc = s.pc := rfl
@[simp] theorem raiseFault_sp (sub : Subcause) (ipc : Pc) (value : Nat) : (s.raiseFault sub ipc value).sp = s.sp := rfl
@[simp] theorem raiseFault_running (sub : Subcause) (ipc : Pc) (value : Nat) : (s.raiseFault sub ipc value).running = false := rfl
@[simp] theorem raiseFault_fault (sub : Subcause) (ipc : Pc) (value : Nat) : (s.raiseFault sub ipc value).fault = some ⟨sub, some ipc, value⟩ := rfl
@[simp] theorem raiseFault_ir (sub : Subcause) (ipc : Pc) (value : Nat) : (s.raiseFault sub ipc value).ir = s.ir := rfl
@[simp] theorem raiseFault_seq (sub : Subcause) (ipc : Pc) (value : Nat) : (s.raiseFault sub ipc value).seq = s.seq := rfl
@[simp] theorem raiseFault_out (sub : Subcause) (ipc : Pc) (value : Nat) : (s.raiseFault sub ipc value).out = s.out ++ [.fault ⟨sub, some ipc, value⟩] := rfl
@[simp] theorem raiseFault_commands (sub : Subcause) (ipc : Pc) (value : Nat) : (s.raiseFault sub ipc value).commands = s.commands := rfl
@[simp] theorem raiseFault_replies (sub : Subcause) (ipc : Pc) (value : Nat) : (s.raiseFault sub ipc value).replies = s.replies := rfl
@[simp] theorem raiseFault_draws (sub : Subcause) (ipc : Pc) (value : Nat) : (s.raiseFault sub ipc value).draws = s.draws := rfl

@[simp] theorem reply_params (r : Reply) : (s.reply r).params = s.params := rfl
@[simp] theorem reply_mem (r : Reply) : (s.reply r).mem = s.mem := rfl
@[simp] theorem reply_regs (r : Reply) : (s.reply r).regs = s.regs := rfl
@[simp] theorem reply_stack (r : Reply) : (s.reply r).stack = s.stack := rfl
@[simp] theorem reply_pc (r : Reply) : (s.reply r).pc = s.pc := rfl
@[simp] theorem reply_sp (r : Reply) : (s.reply r).sp = s.sp := rfl
@[simp] theorem reply_running (r : Reply) : (s.reply r).running = s.running := rfl
@[simp] theorem reply_fault (r : Reply) : (s.reply r).fault = s.fault := rfl
@[simp] theorem reply_ir (r : Reply) : (s.reply r).ir = s.ir := rfl
@[simp] theorem reply_seq (r : Reply) : (s.reply r).seq = s.seq := rfl
@[simp] theorem reply_out (r : Reply) : (s.reply r).out = s.out := rfl
@[simp] theorem reply_commands (r : Reply) : (s.reply r).commands = s.commands := rfl
@[simp] theorem reply_replies (r : Reply) : (s.reply r).replies = s.replies ++ [r] := rfl
@[simp] theorem reply_draws (r : Reply) : (s.reply r).draws = s.draws := rfl

@[simp] theorem zeroed_params (sp : Sp) : (s.zeroed sp).params = s.params := rfl
@[simp] theorem zeroed_mem (sp : Sp) : (s.zeroed sp).mem = [] := rfl
@[simp] theorem zeroed_regs (sp : Sp) : (s.zeroed sp).regs = List.replicate s.params.numRegisters 0 := rfl
@[simp] theorem zeroed_stack (sp : Sp) : (s.zeroed sp).stack = [] := rfl
@[simp] theorem zeroed_pc (sp : Sp) : (s.zeroed sp).pc = 0 := rfl
@[simp] theorem zeroed_sp (sp : Sp) : (s.zeroed sp).sp = sp := rfl
@[simp] theorem zeroed_running (sp : Sp) : (s.zeroed sp).running = false := rfl
@[simp] theorem zeroed_fault (sp : Sp) : (s.zeroed sp).fault = none := rfl
@[simp] theorem zeroed_ir (sp : Sp) : (s.zeroed sp).ir = ⟨Config.freeLatch s.draws, Config.freeLatch (s.draws + 1), Config.freeLatch (s.draws + 2),
      Config.freeLatch (s.draws + 3)⟩ := rfl
@[simp] theorem zeroed_seq (sp : Sp) : (s.zeroed sp).seq = s.seq := rfl
@[simp] theorem zeroed_out (sp : Sp) : (s.zeroed sp).out = s.out := rfl
@[simp] theorem zeroed_commands (sp : Sp) : (s.zeroed sp).commands = s.commands := rfl
@[simp] theorem zeroed_replies (sp : Sp) : (s.zeroed sp).replies = s.replies := rfl
@[simp] theorem zeroed_draws (sp : Sp) : (s.zeroed sp).draws = s.draws + 4 := rfl

/-! `latchOperand` chooses the latch by a number, so its lemmas case on it. -/

@[simp] theorem latchOperand_params (k : Nat) (v : Byte) : (s.latchOperand k v).params = s.params := by
  unfold latchOperand; split <;> rfl
@[simp] theorem latchOperand_mem (k : Nat) (v : Byte) : (s.latchOperand k v).mem = s.mem := by
  unfold latchOperand; split <;> rfl
@[simp] theorem latchOperand_regs (k : Nat) (v : Byte) : (s.latchOperand k v).regs = s.regs := by
  unfold latchOperand; split <;> rfl
@[simp] theorem latchOperand_stack (k : Nat) (v : Byte) : (s.latchOperand k v).stack = s.stack := by
  unfold latchOperand; split <;> rfl
@[simp] theorem latchOperand_pc (k : Nat) (v : Byte) : (s.latchOperand k v).pc = s.pc := by
  unfold latchOperand; split <;> rfl
@[simp] theorem latchOperand_sp (k : Nat) (v : Byte) : (s.latchOperand k v).sp = s.sp := by
  unfold latchOperand; split <;> rfl
@[simp] theorem latchOperand_running (k : Nat) (v : Byte) : (s.latchOperand k v).running = s.running := by
  unfold latchOperand; split <;> rfl
@[simp] theorem latchOperand_fault (k : Nat) (v : Byte) : (s.latchOperand k v).fault = s.fault := by
  unfold latchOperand; split <;> rfl
@[simp] theorem latchOperand_seq (k : Nat) (v : Byte) : (s.latchOperand k v).seq = s.seq := by
  unfold latchOperand; split <;> rfl
@[simp] theorem latchOperand_out (k : Nat) (v : Byte) : (s.latchOperand k v).out = s.out := by
  unfold latchOperand; split <;> rfl
@[simp] theorem latchOperand_commands (k : Nat) (v : Byte) : (s.latchOperand k v).commands = s.commands := by
  unfold latchOperand; split <;> rfl
@[simp] theorem latchOperand_replies (k : Nat) (v : Byte) : (s.latchOperand k v).replies = s.replies := by
  unfold latchOperand; split <;> rfl
@[simp] theorem latchOperand_draws (k : Nat) (v : Byte) : (s.latchOperand k v).draws = s.draws := by
  unfold latchOperand; split <;> rfl

@[simp] theorem latchOperand_one (v : Byte) : (s.latchOperand 1 v).ir = { s.ir with b1 := v } := rfl
@[simp] theorem latchOperand_two (v : Byte) : (s.latchOperand 2 v).ir = { s.ir with b2 := v } := rfl
@[simp] theorem latchOperand_three (v : Byte) : (s.latchOperand 3 v).ir = { s.ir with b3 := v } := rfl

/-! Registers: read after write. -/

theorem x_setX_same (r v : Byte) (h : r.toNat < s.regs.length) : (s.setX r v).x r = v := by
  simp [x, setX, h]

theorem x_setX_other (r q v : Byte) (h : r ≠ q) : (s.setX r v).x q = s.x q := by
  have : r.toNat ≠ q.toNat := fun e => h (BitVec.eq_of_toNat_eq e)
  simp [x, setX, List.getD_eq_getElem?_getD, List.getElem?_set_ne this]

theorem x_setX (r q v : Byte) (h : r.toNat < s.regs.length) : (s.setX r v).x q = if r = q then v else s.x q := by
  by_cases e : r = q
  · subst e; rw [if_pos rfl, x_setX_same s r v h]
  · rw [if_neg e, x_setX_other s r q v e]

/-- Writing one register twice leaves the second value. -/
theorem setX_setX (q v w : Byte) : (s.setX q v).setX q w = s.setX q w := by
  simp only [setX, List.set_set]

/-- Writes of different registers commute. -/
theorem setX_comm (q r v w : Byte) (h : r ≠ q) : (s.setX q v).setX r w = (s.setX r w).setX q v := by
  have : q.toNat ≠ r.toNat := fun e => h (BitVec.eq_of_toNat_eq e.symm)
  simp only [setX, List.set_comm _ _ this]

/-- The address a taken JMP or JZ leaves in `pc`. -/
theorem pcLoad_toNat (t : Addr) : (s.pcLoad t).pc.toNat = t.toNat := by
  have := t.isLt
  rw [pcLoad_pc, BitVec.toNat_setWidth]
  omega

/-- A write changes no length. -/
theorem length_setX (r v : Byte) : (s.setX r v).regs.length = s.regs.length := List.length_set

end Sys2Proof.Machine.State
end

