-- ==== Sys2Proof/Laws/Ops.lean ====
section
/-! SUPPORT. For each shared operation, what it can do, said once: the checks, the fault action in a handler, the alu_unit,
the stack_engine, the fetch, the loop's test, and the host commands. Provers cite these and do not unfold the operations. -/

namespace Sys2Proof.Machine

/-! ### Checks and faults -/

/-- `checkReg` on an index in range. -/
theorem checkReg_ok (m : Mnemonic) (i : Byte) (s : State) (k : Result) (h : i.toNat < s.params.numRegisters) :
    checkReg m i s k = k := if_pos h

/-- `checkReg` on an index out of range. -/
theorem checkReg_trap (m : Mnemonic) (i : Byte) (s : State) (k : Result) (h : s.params.numRegisters ≤ i.toNat) :
    checkReg m i s k = trap m .registerIndex i.toNat s := if_neg (by omega)

/-- `checkAddr` on a target in range. -/
theorem checkAddr_ok (m : Mnemonic) (t : Addr) (s : State) (k : Result) (h : t.toNat < s.params.memorySize) :
    checkAddr m t s k = k := if_pos h

/-- `checkAddr` on a target out of range. -/
theorem checkAddr_trap (m : Mnemonic) (t : Addr) (s : State) (k : Result) (h : s.params.memorySize ≤ t.toNat) :
    checkAddr m t s k = trap m .jumpAddress t.toNat s := if_neg (by omega)

/-- What `checkReg` can do: fault in its own state, or go on. -/
theorem checkReg_cases (m : Mnemonic) (i : Byte) (s : State) (k : Result) :
    (s.params.numRegisters ≤ i.toNat ∧ checkReg m i s k = trap m .registerIndex i.toNat s) ∨
      (i.toNat < s.params.numRegisters ∧ checkReg m i s k = k) := by
  by_cases h : i.toNat < s.params.numRegisters
  · exact .inr ⟨h, checkReg_ok m i s k h⟩
  · exact .inl ⟨by omega, checkReg_trap m i s k (by omega)⟩

/-- What `checkAddr` can do. -/
theorem checkAddr_cases (m : Mnemonic) (t : Addr) (s : State) (k : Result) :
    (s.params.memorySize ≤ t.toNat ∧ checkAddr m t s k = trap m .jumpAddress t.toNat s) ∨
      (t.toNat < s.params.memorySize ∧ checkAddr m t s k = k) := by
  by_cases h : t.toNat < s.params.memorySize
  · exact .inr ⟨h, checkAddr_ok m t s k h⟩
  · exact .inl ⟨by omega, checkAddr_trap m t s k (by omega)⟩

/-- A handler's fault is a next state. -/
theorem trap_eq (m : Mnemonic) (sub : Subcause) (value : Nat) (s : State) :
    trap m sub value s = .next (s.raiseFault sub (s.handlerIpc m) value) := rfl

/-- A handler that starts where the fetch leaves `pc` knows the address of its opcode byte. -/
theorem handlerIpc_of_pc (s : State) (m : Mnemonic) (ipc : Pc)
    (h : s.pc = ipc + BitVec.ofNat 17 (instrLength m)) : s.handlerIpc m = ipc := by
  unfold State.handlerIpc
  rw [h, BitVec.add_sub_cancel]

/-! ### alu_unit -/

@[simp] theorem alu_add (a b : Byte) : alu .add a b = some (a + b) := rfl
@[simp] theorem alu_sub (a b : Byte) : alu .sub a b = some (a - b) := rfl
@[simp] theorem alu_mul (a b : Byte) : alu .mul a b = some (a * b) := rfl
theorem alu_div (a b : Byte) (h : b ≠ 0) : alu .div a b = some (a / b) := if_neg h
@[simp] theorem alu_div_zero (a : Byte) : alu .div a 0 = none := rfl

/-- There is no `y` exactly when `dz` is given (41_load_arith_print.md R168). -/
theorem alu_eq_none (op : AluOp) (a b : Byte) : alu op a b = none ↔ aluDz op b = true := by
  cases op <;> simp [alu, aluDz]

/-- The zero test of JZ. -/
@[simp] theorem isZero_iff (v : Byte) : isZero v = true ↔ v = 0 := by
  unfold isZero alu
  by_cases h : v = 0 <;> simp [h]

/-- What the three-register handlers can do: fault on an index, fault on a divisor of 0 (the alu_unit gives no `y`), or write
one register. -/
theorem arith_cases (m : Mnemonic) (op : AluOp) (a b d : Byte) (s : State) :
    (∃ i : Byte, (i = a ∨ i = b ∨ i = d) ∧ s.params.numRegisters ≤ i.toNat ∧
      arith m op a b d s = trap m .registerIndex i.toNat s) ∨
    (a.toNat < s.params.numRegisters ∧ b.toNat < s.params.numRegisters ∧ d.toNat < s.params.numRegisters ∧
      ((alu op (s.x a) (s.x b) = none ∧ arith m op a b d s = trap m .divideByZero b.toNat s) ∨
        ∃ y, alu op (s.x a) (s.x b) = some y ∧ arith m op a b d s = .next (s.setX d y))) := by
  unfold arith
  rcases checkReg_cases m a s _ with ⟨hr, h⟩ | ⟨ha, h⟩
  · exact .inl ⟨a, .inl rfl, hr, h⟩
  rw [h]
  rcases checkReg_cases m b s _ with ⟨hr, h⟩ | ⟨hb, h⟩
  · exact .inl ⟨b, .inr (.inl rfl), hr, h⟩
  rw [h]
  rcases checkReg_cases m d s _ with ⟨hr, h⟩ | ⟨hd, h⟩
  · exact .inl ⟨d, .inr (.inr rfl), hr, h⟩
  rw [h]
  refine .inr ⟨ha, hb, hd, ?_⟩
  cases hy : alu op (s.x a) (s.x b) with
  | none => exact .inl ⟨rfl, rfl⟩
  | some y => exact .inr ⟨y, rfl, rfl⟩

/-! ### stack_engine -/

/-- `push` on a full stack. -/
theorem stackPush_full (s : State) (v : Byte) (h : s.sp = 0) : s.stackPush v = none :=
  if_pos (by rw [h]; rfl)

/-- `push` with room. -/
theorem stackPush_room (s : State) (v : Byte) (h : s.sp ≠ 0) :
    s.stackPush v = some { s with stack := s.stack.write s.sp.toNat v, sp := s.sp - 1 } :=
  if_neg fun h0 => h (BitVec.eq_of_toNat_eq h0)

/-- `pop` on an empty stack. -/
theorem stackPop_empty (s : State) (h : s.params.memorySize - 1 ≤ s.sp.toNat) : s.stackPop = none := if_pos h

/-- `pop` with a byte to pop. -/
theorem stackPop_some (s : State) (h : s.sp.toNat < s.params.memorySize - 1) :
    s.stackPop = some (s.stack.read (s.sp + 1).toNat, { s with sp := s.sp + 1 }) := if_neg (by omega)

/-! ### Fetch -/

/-- Inside the memory image the increment of `pc` does not wrap. -/
theorem pcIncrement_toNat (s : State) (hm : s.params.memorySize ≤ 65536) (h : s.pc.toNat < s.params.memorySize) :
    (s.pc + 1).toNat = s.pc.toNat + 1 := by
  have h1 : (1 : Pc).toNat = 1 := rfl
  rw [BitVec.toNat_add, h1]
  omega

/-- `pc` after one byte and then `n` more. -/
theorem pc_add_succ (pc : Pc) (n : Nat) : pc + 1 + BitVec.ofNat 17 n = pc + BitVec.ofNat 17 (n + 1) := by
  rw [BitVec.add_assoc, show (1 : Pc) = BitVec.ofNat 17 1 from rfl, ← BitVec.ofNat_add, Nat.add_comm]

/-- One operand byte that lies inside the memory image. -/
theorem fetchOperands_succ (ipc : Pc) (n k : Nat) (s : State) (h : s.pc.toNat < s.params.memorySize) :
    fetchOperands ipc (n + 1) k s = fetchOperands ipc n (k + 1) (s.latchOperand k s.byteAtPc).pcIncrement :=
  if_pos (decide_eq_true h)

/-- The operand fetch past the end of the memory image. -/
theorem fetchOperands_past (ipc : Pc) (n k : Nat) (s : State) (h : s.params.memorySize ≤ s.pc.toNat) :
    fetchOperands ipc (n + 1) k s = .error (s.raiseFault .fetchOperand ipc s.pc.toNat) :=
  if_neg (by unfold State.pcInMemory; simp only [decide_eq_true_eq]; omega)

/-- Operand bytes that all lie inside the memory image are fetched; only `pc` and the operand latches change. -/
theorem fetchOperands_fits (ipc : Pc) (n : Nat) : ∀ (k : Nat) (s : State), s.params.memorySize ≤ 65536 → s.pc.toNat + n ≤ s.params.memorySize →
    ∃ ir, ir.op = s.ir.op ∧
      fetchOperands ipc n k s = .ok { s with pc := s.pc + BitVec.ofNat 17 n, ir := ir } := by
  induction n with
  | zero => intro k s _ _; exact ⟨s.ir, rfl, by simp [fetchOperands]⟩
  | succ n ih =>
    intro k s hm h
    have hlt : s.pc.toNat < s.params.memorySize := by omega
    have hpc : (s.latchOperand k s.byteAtPc).pcIncrement.pc.toNat = s.pc.toNat + 1 := by
      rw [State.pcIncrement_pc, State.latchOperand_pc, pcIncrement_toNat s hm hlt]
    obtain ⟨ir, hop, he⟩ := ih (k + 1) (s.latchOperand k s.byteAtPc).pcIncrement (by simpa using hm) (by rw [hpc]; simp; omega)
    refine ⟨ir, ?_, ?_⟩
    · rw [hop, State.pcIncrement_ir]; unfold State.latchOperand; split <;> rfl
    · rw [fetchOperands_succ ipc n k s hlt, he, ← pc_add_succ]
      simp

/-- Operand bytes that reach past the end of the memory image end in FETCH_OPERAND with `pc` at MEMORY_SIZE. -/
theorem fetchOperands_short (ipc : Pc) (n : Nat) : ∀ (k : Nat) (s : State), s.params.memorySize ≤ 65536 → s.pc.toNat ≤ s.params.memorySize →
    s.params.memorySize < s.pc.toNat + n →
    ∃ ir, ir.op = s.ir.op ∧ fetchOperands ipc n k s =
      .error (({ s with pc := BitVec.ofNat 17 s.params.memorySize, ir := ir } : State).raiseFault .fetchOperand ipc
        s.params.memorySize) := by
  induction n with
  | zero => intro k s hm h1 h2; omega
  | succ n ih =>
    intro k s hm h1 h2
    by_cases hlt : s.pc.toNat < s.params.memorySize
    · have hpc : (s.latchOperand k s.byteAtPc).pcIncrement.pc.toNat = s.pc.toNat + 1 := by
        rw [State.pcIncrement_pc, State.latchOperand_pc, pcIncrement_toNat s hm hlt]
      obtain ⟨ir, hop, he⟩ := ih (k + 1) (s.latchOperand k s.byteAtPc).pcIncrement
        (by simpa using hm) (by rw [hpc]; simp; omega) (by rw [hpc]; simp; omega)
      refine ⟨ir, ?_, ?_⟩
      · rw [hop, State.pcIncrement_ir]; unfold State.latchOperand; split <;> rfl
      · rw [fetchOperands_succ ipc n k s hlt, he]
        simp
    · have hpc : s.pc.toNat = s.params.memorySize := by omega
      have hbv : s.pc = BitVec.ofNat 17 s.params.memorySize := BitVec.eq_of_toNat_eq (by
        rw [hpc, BitVec.toNat_ofNat]; omega)
      refine ⟨s.ir, rfl, ?_⟩
      rw [fetchOperands_past ipc n k s (by omega), hpc]
      simp only [← hbv]

/-- The dispatcher gives the operand count of the mnemonic it names, and the byte is that mnemonic's opcode. -/
theorem dispatch_some (map : Config.OpcodeMap) (op : Byte) (m : Mnemonic) (n : Nat)
    (h : dispatch map op = some (m, n)) : n = operandCount m ∧ map.code m = op := by
  unfold dispatch at h
  split at h
  · rename_i m' hf
    simp only [Option.some.injEq, Prod.mk.injEq] at h
    obtain ⟨rfl, rfl⟩ := h
    exact ⟨rfl, by simpa using List.find?_some hf⟩
  · exact absurd h (by simp)

@[simp] theorem instrOf_mnemonic (m : Mnemonic) (b1 b2 b3 : Byte) : (instrOf m b1 b2 b3).mnemonic = m := by
  cases m <;> rfl

/-- Everything the fetch and the decoding can do. Only `pc` and the latches change before a handler; the three faults are
those of 60_exceptions.md R268. -/
theorem fetchDecode_cases (s : State) (hm : s.params.memorySize ≤ 65536) :
    (s.params.memorySize ≤ s.pc.toNat ∧ fetchDecode s = .error (s.raiseFault .fetchOpcode s.pc s.pc.toNat)) ∨
    (s.pc.toNat < s.params.memorySize ∧ dispatch s.params.opcodeMap s.byteAtPc = none ∧
      fetchDecode s = .error (({ s with pc := s.pc + 1, ir := { s.ir with op := s.byteAtPc } } : State).raiseFault
        .illegalOpcode s.pc s.byteAtPc.toNat)) ∨
    (∃ m ir, s.pc.toNat < s.params.memorySize ∧ dispatch s.params.opcodeMap s.byteAtPc = some (m, operandCount m) ∧
      s.params.memorySize < s.pc.toNat + instrLength m ∧ ir.op = s.byteAtPc ∧
      fetchDecode s = .error (({ s with pc := BitVec.ofNat 17 s.params.memorySize, ir := ir } : State).raiseFault
        .fetchOperand s.pc s.params.memorySize)) ∨
    (∃ m ir, s.pc.toNat < s.params.memorySize ∧ dispatch s.params.opcodeMap s.byteAtPc = some (m, operandCount m) ∧
      s.pc.toNat + instrLength m ≤ s.params.memorySize ∧ ir.op = s.byteAtPc ∧
      fetchDecode s = .ok (instrOf m ir.b1 ir.b2 ir.b3,
        { s with pc := s.pc + BitVec.ofNat 17 (instrLength m), ir := ir })) := by
  by_cases hpc : s.pc.toNat < s.params.memorySize
  · have hin : s.pcInMemory = true := decide_eq_true hpc
    have hinc : (s.latchOp s.byteAtPc).pcIncrement.pc.toNat = s.pc.toNat + 1 := by
      rw [State.pcIncrement_pc, State.latchOp_pc, pcIncrement_toNat s hm hpc]
    cases hd : dispatch s.params.opcodeMap s.byteAtPc with
    | none =>
      refine .inr (.inl ⟨hpc, rfl, ?_⟩)
      simp only [fetchDecode, hin, if_true, hd]
      rfl
    | some mn =>
      obtain ⟨m, n⟩ := mn
      obtain ⟨rfl, -⟩ := dispatch_some _ _ _ _ hd
      by_cases hfit : s.pc.toNat + instrLength m ≤ s.params.memorySize
      · obtain ⟨ir, hop, he⟩ := fetchOperands_fits s.pc (operandCount m) 1 (s.latchOp s.byteAtPc).pcIncrement
          (by simpa using hm) (by rw [hinc]; simp; unfold instrLength at hfit; omega)
        refine .inr (.inr (.inr ⟨m, ir, hpc, rfl, hfit, by simpa using hop, ?_⟩))
        simp only [fetchDecode, hin, if_true, hd, he, State.pcIncrement_pc, State.latchOp_pc, pc_add_succ]
        rw [instrLength, Nat.add_comm 1]
        rfl
      · obtain ⟨ir, hop, he⟩ := fetchOperands_short s.pc (operandCount m) 1 (s.latchOp s.byteAtPc).pcIncrement
          (by simpa using hm) (by rw [hinc]; simp; omega) (by rw [hinc]; simp; unfold instrLength at hfit; omega)
        refine .inr (.inr (.inl ⟨m, ir, hpc, rfl, by omega, by simpa using hop, ?_⟩))
        simp only [fetchDecode, hin, if_true, hd, he]
        rfl
  · refine .inl ⟨by omega, ?_⟩
    have hin : s.pcInMemory = false := decide_eq_false hpc
    simp [fetchDecode, hin]

/-! ### Parameters -/

/-- The limits that legal parameters meet, as propositions (00_scope.md R7). -/
theorem params_limits (p : Config.Params) (h : p.wf = true) :
    1 ≤ p.memorySize ∧ p.memorySize ≤ 65536 ∧ 1 ≤ p.numRegisters ∧ p.numRegisters ≤ 256 ∧ p.opcodeMap.wf = true ∧
      (p.spAfterReset = p.memorySize - 1 ∨ p.spAfterReset = 0) := by
  simp only [Config.Params.wf, Bool.and_eq_true, Bool.or_eq_true, decide_eq_true_eq] at h
  tauto

/-- SP_WIDTH bits hold every position of `sp` (00_scope.md R7). -/
theorem memorySize_le_spWidth (p : Config.Params) : p.memorySize ≤ 2 ^ p.spWidth := by
  have h : p.memorySize - 1 < 2 ^ ((p.memorySize - 1).log2 + 1) := Nat.lt_log2_self
  unfold Config.Params.spWidth
  omega

/-- The empty position of `sp` is MEMORY_SIZE-1. -/
theorem emptySp_toNat (p : Config.Params) (h : p.wf = true) : p.emptySp.toNat = p.memorySize - 1 := by
  have := params_limits p h
  rw [Config.Params.emptySp, BitVec.toNat_ofNat]
  omega

/-- SP_AFTER_RESET fits in `sp`. -/
theorem spAfterReset_toNat (p : Config.Params) (h : p.wf = true) :
    (BitVec.ofNat 16 p.spAfterReset).toNat = p.spAfterReset := by
  have := params_limits p h
  rw [BitVec.toNat_ofNat]
  omega

/-! ### The loop's test and the host -/

/-- The loop goes on while `running`. -/
theorem endIteration_running (s : State) (h : s.running = true) : s.endIteration = s := if_pos h

/-- EXECUTE returns once `running` is false. -/
theorem endIteration_stopped (s : State) (h : s.running = false) :
    s.endIteration = ({ s with seq := .idle } : State).reply .executeReturned :=
  if_neg (by rw [h]; exact Bool.false_ne_true)

/-- A LOAD that fits. -/
theorem hostLoad_ok (p : List Byte) (s : State) (h : p.length ≤ s.params.memorySize) :
    hostLoad p s = ({ s with mem := s.mem.writeBytes 0 p, running := true } : State).reply .loadOk :=
  if_neg (by omega)

/-- A LOAD that is too long. -/
theorem hostLoad_refused (p : List Byte) (s : State) (h : s.params.memorySize < p.length) :
    hostLoad p s = (s.emit (.fault ⟨.programTooLong, none, p.length⟩)).reply .loadRefused := if_pos h

/-- A host move on an idle block is performed. -/
theorem issue_idle (c : HostCommand) (s : State) (h : s.seq = .idle) : issue c s = .next (perform c s) := by
  simp only [issue, h]

/-- A step in IDLE with no command pending changes nothing. -/
theorem step_idle_nil (s : State) (h : s.seq = .idle) (hc : s.commands = []) : step s = .next s := by
  rw [step, h]
  simp only [idleMove, hc]

/-- A step in IDLE takes the next command. -/
theorem step_idle_cons (s : State) (c : HostCommand) (rest : List HostCommand) (h : s.seq = .idle)
    (hc : s.commands = c :: rest) : step s = .next (perform c { s with commands := rest }) := by
  have hm : step s = idleMove s := by simp only [step, h]
  rw [hm]
  simp only [idleMove, hc]
  exact issue_idle c { s with commands := rest } h

/-- A step in FETCH_OP is one iteration of the loop. -/
theorem step_fetchOp (s : State) (h : s.seq = .fetchOp) : step s = iteration s := by
  rw [step, h]

/-- An instance is built with legal parameters. -/
theorem build_legal (p : Config.Params) (h : p.wf = true) : build p = .next (State.fresh p) := if_pos h

/-- No other is. -/
theorem build_refused (p : Config.Params) (h : p.wf = false) : build p = .refused .illFormedParameters :=
  if_neg (by rw [h]; exact Bool.false_ne_true)

end Sys2Proof.Machine
end

