-- ==== Sys2Proof/Laws/Exec.lean ====
section
/-! SUPPORT. The inversion lemma of `exec`: everything a handler can do, with the instruction and the condition under which
it does it. Frames and whole-machine rules are case analyses over it. -/

namespace Sys2Proof.Machine

/-- What a handler does when it does not fault. -/
inductive Effect (s : State) : Instr → State → Prop where
  | halt : Effect s .halt s.clearRunning
  | load (reg value : Byte) (h : reg.toNat < s.params.numRegisters) :
      Effect s (.load reg value) (s.setX reg value)
  | arith (op : AluOp) (i : Instr) (a b d y : Byte) (ha : a.toNat < s.params.numRegisters)
      (hb : b.toNat < s.params.numRegisters) (hd : d.toNat < s.params.numRegisters)
      (hi : (op, i) ∈ [(AluOp.add, Instr.add a b d), (.sub, .sub a b d), (.mul, .mul a b d), (.div, .div a b d)])
      (hy : alu op (s.x a) (s.x b) = some y) : Effect s i (s.setX d y)
  | print (reg : Byte) (h : reg.toNat < s.params.numRegisters) :
      Effect s (.print reg) (s.emit (.print (s.x reg)))
  | jmp (t : Addr) (h : t.toNat < s.params.memorySize) : Effect s (.jmp t) (s.pcLoad t)
  | jzTaken (reg : Byte) (t : Addr) (h : reg.toNat < s.params.numRegisters) (ht : t.toNat < s.params.memorySize)
      (hz : s.x reg = 0) : Effect s (.jz reg t) (s.pcLoad t)
  | jzNotTaken (reg : Byte) (t : Addr) (h : reg.toNat < s.params.numRegisters) (ht : t.toNat < s.params.memorySize)
      (hz : s.x reg ≠ 0) : Effect s (.jz reg t) s
  | push (reg : Byte) (h : reg.toNat < s.params.numRegisters) (hs : s.sp ≠ 0) :
      Effect s (.push reg) { s with stack := s.stack.write s.sp.toNat (s.x reg), sp := s.sp - 1 }
  | pop (reg : Byte) (h : reg.toNat < s.params.numRegisters) (hs : s.sp.toNat < s.params.memorySize - 1) :
      Effect s (.pop reg) (({ s with sp := s.sp + 1 } : State).setX reg (s.stackAt (s.sp + 1).toNat))

/-- Why a handler faults. -/
inductive Trapped (s : State) : Instr → Subcause → Nat → Prop where
  | index (i : Instr) (r : Byte) (h : s.params.numRegisters ≤ r.toNat) (hh : i ≠ .halt) (hj : ∀ t, i ≠ .jmp t) :
      Trapped s i .registerIndex r.toNat
  | jumpAddress (t : Addr) (h : s.params.memorySize ≤ t.toNat) : Trapped s (.jmp t) .jumpAddress t.toNat
  | branchAddress (reg : Byte) (t : Addr) (hr : reg.toNat < s.params.numRegisters) (h : s.params.memorySize ≤ t.toNat) :
      Trapped s (.jz reg t) .jumpAddress t.toNat
  | divideByZero (a b d : Byte) (hb : b.toNat < s.params.numRegisters) (h : s.x b = 0) :
      Trapped s (.div a b d) .divideByZero b.toNat
  | stackUnderflow (reg : Byte) (h : s.sp = 0) : Trapped s (.push reg) .stackUnderflow s.sp.toNat
  | stackOverflow (reg : Byte) (h : s.params.memorySize - 1 ≤ s.sp.toNat) : Trapped s (.pop reg) .stackOverflow s.sp.toNat

/-- The three-register handlers, by `arith_cases`. -/
theorem arith_inversion (i : Instr) (m : Mnemonic) (op : AluOp) (a b d : Byte) (s : State) (hh : i ≠ .halt)
    (hj : ∀ t, i ≠ .jmp t)
    (hi : (op, i) ∈ [(AluOp.add, Instr.add a b d), (.sub, .sub a b d), (.mul, .mul a b d), (.div, .div a b d)]) :
    (∃ t, arith m op a b d s = .next t ∧ Effect s i t) ∨
      ∃ sub value, arith m op a b d s = trap m sub value s ∧ Trapped s i sub value := by
  rcases arith_cases m op a b d s with ⟨r, -, hr, h⟩ | ⟨ha, hb, hd, ⟨hy, h⟩ | ⟨y, hy, h⟩⟩
  · exact .inr ⟨_, _, h, .index i r hr hh hj⟩
  · refine .inr ⟨_, _, h, ?_⟩
    have hdz := (alu_eq_none _ _ _).mp hy
    simp only [aluDz, Bool.and_eq_true, decide_eq_true_eq] at hdz
    obtain ⟨rfl, hz⟩ := hdz
    obtain rfl : i = .div a b d := by simpa using hi
    exact .divideByZero a b d hb hz
  · exact .inl ⟨_, h, .arith op i a b d y ha hb hd hi hy⟩

/-- Everything a handler can do: its effect, or a fault in its own state. -/
theorem exec_inversion (i : Instr) (s : State) :
    (∃ t, exec i s = .next t ∧ Effect s i t) ∨
      ∃ sub value, exec i s = trap i.mnemonic sub value s ∧ Trapped s i sub value := by
  cases i with
  | halt => exact .inl ⟨_, rfl, .halt⟩
  | load reg value =>
    simp only [exec, execLoad, Instr.mnemonic]
    rcases checkReg_cases .load reg s _ with ⟨hr, h⟩ | ⟨hr, h⟩
    · exact .inr ⟨_, _, h, .index _ reg hr (by simp) (by simp)⟩
    · exact .inl ⟨_, h, .load reg value hr⟩
  | add a b d => exact arith_inversion _ .add .add a b d s (by simp) (by simp) (by simp)
  | sub a b d => exact arith_inversion _ .sub .sub a b d s (by simp) (by simp) (by simp)
  | mul a b d => exact arith_inversion _ .mul .mul a b d s (by simp) (by simp) (by simp)
  | div a b d => exact arith_inversion _ .div .div a b d s (by simp) (by simp) (by simp)
  | jmp t =>
    simp only [exec, execJmp, Instr.mnemonic]
    rcases checkAddr_cases .jmp t s (.next (s.pcLoad t)) with ⟨ht, h⟩ | ⟨ht, h⟩
    · exact .inr ⟨_, _, h, .jumpAddress t ht⟩
    · exact .inl ⟨_, h, .jmp t ht⟩
  | jz reg t =>
    simp only [exec, execJz, Instr.mnemonic]
    rcases checkReg_cases .jz reg s _
      with ⟨hr, h⟩ | ⟨hr, h⟩
    · exact .inr ⟨_, _, h, .index _ reg hr (by simp) (by simp)⟩
    rw [h]
    rcases checkAddr_cases .jz t s (.next (if isZero (s.x reg) then s.pcLoad t else s))
      with ⟨ht, h⟩ | ⟨ht, h⟩
    · exact .inr ⟨_, _, h, .branchAddress reg t hr ht⟩
    rw [h]
    by_cases hz : s.x reg = 0
    · rw [if_pos ((isZero_iff _).mpr hz)]
      exact .inl ⟨_, rfl, .jzTaken reg t hr ht hz⟩
    · rw [if_neg fun e => hz ((isZero_iff _).mp e)]
      exact .inl ⟨_, rfl, .jzNotTaken reg t hr ht hz⟩
  | push reg =>
    simp only [exec, execPush, Instr.mnemonic]
    rcases checkReg_cases .push reg s _ with ⟨hr, h⟩ | ⟨hr, h⟩
    · exact .inr ⟨_, _, h, .index _ reg hr (by simp) (by simp)⟩
    rw [h]
    by_cases h0 : s.sp = 0
    · rw [stackPush_full s _ h0]
      exact .inr ⟨_, _, rfl, .stackUnderflow reg h0⟩
    · rw [stackPush_room s _ h0]
      exact .inl ⟨_, rfl, .push reg hr h0⟩
  | pop reg =>
    simp only [exec, execPop, Instr.mnemonic]
    rcases checkReg_cases .pop reg s _ with ⟨hr, h⟩ | ⟨hr, h⟩
    · exact .inr ⟨_, _, h, .index _ reg hr (by simp) (by simp)⟩
    rw [h]
    by_cases h0 : s.sp.toNat < s.params.memorySize - 1
    · rw [stackPop_some s h0]
      exact .inl ⟨_, rfl, .pop reg hr h0⟩
    · rw [stackPop_empty s (by omega)]
      exact .inr ⟨_, _, rfl, .stackOverflow reg (by omega)⟩
  | print reg =>
    simp only [exec, execPrint, Instr.mnemonic]
    rcases checkReg_cases .print reg s _ with ⟨hr, h⟩ | ⟨hr, h⟩
    · exact .inr ⟨_, _, h, .index _ reg hr (by simp) (by simp)⟩
    · exact .inl ⟨_, h, .print reg hr⟩

end Sys2Proof.Machine
end

