-- ==== Sys2Proof/Laws/Fetch.lean ====
section
/-! SUPPORT. The fetch against the decoder: what `fetchDecode` gives is what `decode` reads from the bytes at `pc`, with each
latch said exactly; and where the bytes do not decode, which of the three fetch faults it takes. -/

namespace Sys2Proof.Machine

/-- No instruction has more than three operand bytes (30_encoding.md R104). -/
theorem operandCount_le (m : Mnemonic) : operandCount m ≤ 3 := by cases m <;> decide

/-- The operand bytes that fit go into their latches, and `pc` moves past them (40_execute_loop.md R134). -/
theorem fetchOperands_exact (ipc : Pc) (s : State) (hm : s.params.memorySize ≤ 65536) (n : Nat) (hn : n ≤ 3)
    (h : s.pc.toNat + n ≤ s.params.memorySize) :
    fetchOperands ipc n 1 s = .ok { s with
      pc := s.pc + BitVec.ofNat 17 n
      ir := ⟨s.ir.op, if 1 ≤ n then s.mem.read s.pc.toNat else s.ir.b1,
        if 2 ≤ n then s.mem.read (s.pc.toNat + 1) else s.ir.b2,
        if 3 ≤ n then s.mem.read (s.pc.toNat + 2) else s.ir.b3⟩ } := by
  have e1 : 1 ≤ n → (s.pc + 1).toNat = s.pc.toNat + 1 := by intro _; bv_omega
  have e2 : 2 ≤ n → (s.pc + 1 + 1).toNat = s.pc.toNat + 2 := by intro _; bv_omega
  obtain rfl | rfl | rfl | rfl : n = 0 ∨ n = 1 ∨ n = 2 ∨ n = 3 := by omega
  · simp [fetchOperands]
  · rw [fetchOperands_succ _ _ _ _ (by omega)]
    rfl
  · have e1 := e1 (by omega)
    rw [fetchOperands_succ _ _ _ _ (by omega),
      fetchOperands_succ _ _ _ _ (by
        simp only [State.pcIncrement_pc, State.latchOperand_pc, State.pcIncrement_params, State.latchOperand_params]; omega)]
    simp only [fetchOperands, State.latchOperand, State.pcIncrement, State.byteAtPc]
    rw [e1, BitVec.add_assoc]
    rfl
  · have e1 := e1 (by omega)
    have e2 := e2 (by omega)
    rw [fetchOperands_succ _ _ _ _ (by omega),
      fetchOperands_succ _ _ _ _ (by
        simp only [State.pcIncrement_pc, State.latchOperand_pc, State.pcIncrement_params, State.latchOperand_params]; omega),
      fetchOperands_succ _ _ _ _ (by
        simp only [State.pcIncrement_pc, State.latchOperand_pc, State.pcIncrement_params, State.latchOperand_params]; omega)]
    simp only [fetchOperands, State.latchOperand, State.pcIncrement, State.byteAtPc]
    rw [e1, e2, BitVec.add_assoc, BitVec.add_assoc]
    rfl

/-- The latches after the fetch of an instruction: those of its bytes are loaded, the others keep what they held
(10_state.md R50). -/
structure Latched (s : State) (n : Nat) (ir : InstrReg) : Prop where
  op : ir.op = s.mem.read s.pc.toNat
  b1 : ir.b1 = if 1 ≤ n then s.mem.read (s.pc.toNat + 1) else s.ir.b1
  b2 : ir.b2 = if 2 ≤ n then s.mem.read (s.pc.toNat + 2) else s.ir.b2
  b3 : ir.b3 = if 3 ≤ n then s.mem.read (s.pc.toNat + 3) else s.ir.b3

/-- The fetch of an instruction that fits. -/
theorem fetchDecode_exact (s : State) (hm : s.params.memorySize ≤ 65536) (m : Mnemonic) (h1 : s.pc.toNat < s.params.memorySize)
    (hd : dispatch s.params.opcodeMap (s.mem.read s.pc.toNat) = some (m, operandCount m))
    (h : s.pc.toNat + 1 + operandCount m ≤ s.params.memorySize) :
    ∃ ir, Latched s (operandCount m) ir ∧ fetchDecode s =
      .ok (instrOf m ir.b1 ir.b2 ir.b3, { s with pc := s.pc + BitVec.ofNat 17 (1 + operandCount m), ir := ir }) := by
  have hinc : (s.latchOp s.byteAtPc).pcIncrement.pc.toNat = s.pc.toNat + 1 := by
    rw [State.pcIncrement_pc, State.latchOp_pc, pcIncrement_toNat s hm h1]
  have hf := fetchOperands_exact s.pc (s.latchOp s.byteAtPc).pcIncrement (by simpa using hm)
    (operandCount m) (operandCount_le m) (by rw [hinc]; simp; omega)
  refine ⟨⟨_, if 1 ≤ operandCount m then s.mem.read (s.pc.toNat + 1) else s.ir.b1,
    if 2 ≤ operandCount m then s.mem.read (s.pc.toNat + 2) else s.ir.b2,
    if 3 ≤ operandCount m then s.mem.read (s.pc.toNat + 3) else s.ir.b3⟩, ⟨rfl, rfl, rfl, rfl⟩, ?_⟩
  unfold fetchDecode
  rw [if_pos (show s.pcInMemory = true from decide_eq_true h1)]
  unfold State.byteAtPc at *
  simp only [hd, hf, hinc]
  simp only [State.pcIncrement_pc, State.latchOp_pc, pc_add_succ, Nat.add_comm 1 (operandCount m),
    State.pcIncrement_mem, State.latchOp_mem, State.pcIncrement_ir, State.latchOp_ir]
  rfl

/-- Inside the memory image the bytes at `pc` begin with the opcode byte. -/
theorem fetchWindow_cons (s : State) (h : s.pc.toNat < s.params.memorySize) :
    ∃ tail, s.fetchWindow = s.mem.read s.pc.toNat :: tail := by
  unfold State.fetchWindow longestInstr
  obtain ⟨k, hk⟩ : ∃ k, min 4 (s.params.memorySize - s.pc.toNat) = k + 1 := ⟨min 4 (s.params.memorySize - s.pc.toNat) - 1, by omega⟩
  rw [hk, List.range_succ_eq_map]
  exact ⟨_, rfl⟩

/-- Past the memory image there are no bytes. -/
theorem fetchWindow_past (s : State) (h : s.params.memorySize ≤ s.pc.toNat) : s.fetchWindow = [] := by
  unfold State.fetchWindow
  rw [Nat.sub_eq_zero_of_le h]
  rfl

/-- What the decoder reads at an assigned opcode byte: the instruction if it fits, or the end of the bytes. -/
theorem decode_fetchWindow (s : State) (m : Mnemonic) (h1 : s.pc.toNat < s.params.memorySize)
    (hd : dispatch s.params.opcodeMap (s.mem.read s.pc.toNat) = some (m, operandCount m)) :
    (s.pc.toNat + 1 + operandCount m ≤ s.params.memorySize → ∃ rest, decodeWith s.params.opcodeMap s.fetchWindow =
      .ok (instrOf m (s.mem.read (s.pc.toNat + 1)) (s.mem.read (s.pc.toNat + 2)) (s.mem.read (s.pc.toNat + 3)), rest)) ∧
    (s.params.memorySize < s.pc.toNat + 1 + operandCount m → decodeWith s.params.opcodeMap s.fetchWindow = .error (.truncated m)) := by
  have hl := operandCount_le m
  unfold State.fetchWindow longestInstr
  obtain hk | hk | hk | hk :
      (min 4 (s.params.memorySize - s.pc.toNat) = 4 ∧ s.pc.toNat + 4 ≤ s.params.memorySize) ∨
      (min 4 (s.params.memorySize - s.pc.toNat) = 3 ∧ s.pc.toNat + 3 = s.params.memorySize) ∨
      (min 4 (s.params.memorySize - s.pc.toNat) = 2 ∧ s.pc.toNat + 2 = s.params.memorySize) ∨
      (min 4 (s.params.memorySize - s.pc.toNat) = 1 ∧ s.pc.toNat + 1 = s.params.memorySize) := by omega
  all_goals
    rw [hk.1]
    refine ⟨fun h => ?_, fun h => ?_⟩ <;>
    · simp only [List.range, List.range.loop, List.map, decodeWith, Nat.add_zero, hd]
      cases m <;> simp only [operandCount] at * <;> first | omega | exact ⟨_, rfl⟩

/-- At an unassigned opcode byte nothing decodes. -/
theorem decode_fetchWindow_illegal (s : State) (h : dispatch s.params.opcodeMap (s.mem.read s.pc.toNat) = none) (i : Instr)
    (rest : List Byte) : decodeWith s.params.opcodeMap s.fetchWindow ≠ .ok (i, rest) := by
  by_cases h1 : s.pc.toNat < s.params.memorySize
  · obtain ⟨tail, e⟩ := fetchWindow_cons s h1
    simp [e, decodeWith, h]
  · rw [fetchWindow_past s (by omega)]
    simp [decodeWith]

/-- A fetch fault, where `pc` stands after it, and when it is taken (60_exceptions.md R264, R265, R272). -/
structure FetchFault (s : State) (sub : Subcause) (pc : Pc) : Prop where
  cases : (sub = .fetchOpcode ∧ pc = s.pc ∧ s.params.memorySize ≤ s.pc.toNat) ∨
    (sub = .illegalOpcode ∧ pc = s.pc + 1 ∧ s.pc.toNat < s.params.memorySize) ∨
    (sub = .fetchOperand ∧ pc = BitVec.ofNat 17 s.params.memorySize ∧ s.pc.toNat < s.params.memorySize)

/-- Everything the fetch can do, against the decoder. -/
theorem fetchDecode_decode (s : State) (hm : s.params.memorySize ≤ 65536) :
    ((∀ i rest, decodeWith s.params.opcodeMap s.fetchWindow ≠ .ok (i, rest)) ∧ ∃ sub value pc ir, FetchFault s sub pc ∧
      fetchDecode s = .error (({ s with pc := pc, ir := ir } : State).raiseFault sub s.pc value)) ∨
    ∃ i rest ir, decodeWith s.params.opcodeMap s.fetchWindow = .ok (i, rest) ∧ s.pc.toNat + 1 + operandCount i.mnemonic ≤ s.params.memorySize ∧
      Latched s (operandCount i.mnemonic) ir ∧ fetchDecode s =
        .ok (i, { s with pc := s.pc + BitVec.ofNat 17 (1 + operandCount i.mnemonic), ir := ir }) := by
  rcases fetchDecode_cases s hm with ⟨h1, e⟩ | ⟨h1, hd, e⟩ | ⟨m, ir, h1, hd, h3, -, e⟩ | ⟨m, ir, h1, hd, h3, -, e⟩
  · refine .inl ⟨?_, _, _, s.pc, s.ir, ⟨.inl ⟨rfl, rfl, h1⟩⟩, e⟩
    rw [fetchWindow_past s h1]
    simp [decodeWith]
  · exact .inl ⟨decode_fetchWindow_illegal s hd, _, _, _, _, ⟨.inr (.inl ⟨rfl, rfl, h1⟩)⟩, e⟩
  · refine .inl ⟨?_, _, _, _, _, ⟨.inr (.inr ⟨rfl, rfl, h1⟩)⟩, e⟩
    rw [(decode_fetchWindow s m h1 hd).2 (by unfold instrLength at h3; omega)]
    simp
  · have h3' : s.pc.toNat + 1 + operandCount m ≤ s.params.memorySize := by unfold instrLength at h3; omega
    obtain ⟨rest, hw⟩ := (decode_fetchWindow s m h1 hd).1 h3'
    obtain ⟨ir, hl, he⟩ := fetchDecode_exact s hm m h1 hd h3'
    have hi : instrOf m ir.b1 ir.b2 ir.b3 =
        instrOf m (s.mem.read (s.pc.toNat + 1)) (s.mem.read (s.pc.toNat + 2)) (s.mem.read (s.pc.toNat + 3)) := by
      cases m <;> simp [instrOf, operandCount, hl.b1, hl.b2, hl.b3]
    refine .inr ⟨_, rest, ir, hw, ?_, ?_, ?_⟩
    · rw [instrOf_mnemonic]; exact h3'
    · rw [instrOf_mnemonic]; exact hl
    · rw [he, hi, instrOf_mnemonic]

/-- What the operand fetch can change, whatever the parameters are: `pc` and the latches, and what the fault action writes. -/
theorem fetchOperands_touches (ipc : Pc) (n : Nat) : ∀ (k : Nat) (s : State),
    (∃ pc ir v, fetchOperands ipc n k s =
      .error (({ s with pc := pc, ir := ir } : State).raiseFault .fetchOperand ipc v)) ∨
    ∃ pc ir, fetchOperands ipc n k s = .ok { s with pc := pc, ir := ir } := by
  induction n with
  | zero => intro k s; exact .inr ⟨s.pc, s.ir, rfl⟩
  | succ n ih =>
    intro k s
    unfold fetchOperands
    split
    · rcases ih (k + 1) (s.latchOperand k s.byteAtPc).pcIncrement with ⟨pc, ir, v, e⟩ | ⟨pc, ir, e⟩ <;> rw [e]
      · exact .inl ⟨pc, ir, v, by simp⟩
      · exact .inr ⟨pc, ir, by simp⟩
    · exact .inl ⟨s.pc, s.ir, _, rfl⟩

/-- What the fetch can change, whatever the parameters are. -/
theorem fetchDecode_touches (s : State) :
    (∃ sub pc ir v, fetchDecode s = .error (({ s with pc := pc, ir := ir } : State).raiseFault sub s.pc v)) ∨
    ∃ i pc ir, fetchDecode s = .ok (i, { s with pc := pc, ir := ir }) := by
  unfold fetchDecode
  split
  · split
    · exact .inl ⟨_, _, _, _, rfl⟩
    · rename_i m n _
      rcases fetchOperands_touches s.pc n 1 (s.latchOp s.byteAtPc).pcIncrement with ⟨pc, ir, v, e⟩ | ⟨pc, ir, e⟩ <;> rw [e]
      · exact .inl ⟨_, pc, ir, v, by simp; rfl⟩
      · exact .inr ⟨_, pc, ir, by simp; rfl⟩
  · exact .inl ⟨_, s.pc, s.ir, _, rfl⟩

/-- The fetch reads neither the latches nor the channel, the results or the draws: from two states that differ only there it
gives the same instruction, or the same fault. -/
theorem fetchDecode_ignores (s : State) (ir out replies draws) :
    (∃ sub pc ir1 ir2 v, fetchDecode s = .error (({ s with pc := pc, ir := ir1 } : State).raiseFault sub s.pc v) ∧
      fetchDecode { s with ir := ir, out := out, replies := replies, draws := draws } =
        .error (({ s with pc := pc, ir := ir2, out := out, replies := replies, draws := draws } : State).raiseFault
          sub s.pc v)) ∨
    ∃ i pc ir1 ir2, fetchDecode s = .ok (i, { s with pc := pc, ir := ir1 }) ∧
      fetchDecode { s with ir := ir, out := out, replies := replies, draws := draws } =
        .ok (i, { s with pc := pc, ir := ir2, out := out, replies := replies, draws := draws }) := by
  unfold fetchDecode
  have a0 : ({ s with ir := ir, out := out, replies := replies, draws := draws } : State).pcInMemory = s.pcInMemory := rfl
  have a1 : ({ s with ir := ir, out := out, replies := replies, draws := draws } : State).byteAtPc = s.byteAtPc := rfl
  rw [a0, a1]
  by_cases h0 : s.pcInMemory
  · rw [if_pos h0, if_pos h0]
    simp only []
    cases hd : dispatch s.params.opcodeMap s.byteAtPc with
    | none => exact .inl ⟨_, _, _, _, _, rfl, rfl⟩
    | some mn =>
      obtain ⟨m, n⟩ := mn
      obtain ⟨rfl, _⟩ := dispatch_some _ _ _ _ hd
      simp only []
      by_cases h1 : (s.pc + 1).toNat < s.params.memorySize <;>
      by_cases h2 : (s.pc + 1 + 1).toNat < s.params.memorySize <;>
      by_cases h3 : (s.pc + 1 + 1 + 1).toNat < s.params.memorySize <;>
      cases m <;>
      simp only [operandCount, fetchOperands, State.pcInMemory, State.byteAtPc, State.latchOperand, State.latchOp,
        State.pcIncrement, h1, h2, h3, decide_true, decide_false, if_true, if_false, Bool.false_eq_true] <;>
      first
        | exact .inl ⟨_, _, _, _, _, rfl, rfl⟩
        | exact .inr ⟨_, _, _, _, rfl, rfl⟩
  · rw [if_neg h0, if_neg h0]
    exact .inl ⟨_, s.pc, s.ir, ir, _, rfl, rfl⟩

end Sys2Proof.Machine
end

