-- ==== Sys2Proof/Laws/PerInstr.lean ====
section
/-! SUPPORT. Statements about every instruction as syntax, one lemma for each constructor. -/

/-- The encoding of the instruction is its opcode byte followed by `n(m)` operand bytes, 1 to 4 bytes in all
(30_encoding.md R100, R101, R104), under every OPCODE_MAP. -/
def Sys2Proof.Laws.EncodedLength.Statement (i : Sys2Proof.Instr) : Prop :=
  ∀ map : Sys2Proof.Config.OpcodeMap,
    (Sys2Proof.encodeWith map i).head? = some (map.code i.mnemonic) ∧
    (Sys2Proof.encodeWith map i).length = Sys2Proof.instrLength i.mnemonic ∧
    1 ≤ Sys2Proof.instrLength i.mnemonic ∧ Sys2Proof.instrLength i.mnemonic ≤ Sys2Proof.longestInstr

namespace Sys2Proof.Laws.EncodedLength

/-- The bounds on the length, for every mnemonic. -/
theorem length_bounds (m : Mnemonic) : 1 ≤ instrLength m ∧ instrLength m ≤ longestInstr := by cases m <;> decide

theorem halt : Statement .halt := fun _ => ⟨rfl, rfl, length_bounds _⟩
theorem load (reg value : Byte) : Statement (.load reg value) := fun _ => ⟨rfl, rfl, length_bounds _⟩
theorem add (a b d : Byte) : Statement (.add a b d) := fun _ => ⟨rfl, rfl, length_bounds _⟩
theorem sub (a b d : Byte) : Statement (.sub a b d) := fun _ => ⟨rfl, rfl, length_bounds _⟩
theorem mul (a b d : Byte) : Statement (.mul a b d) := fun _ => ⟨rfl, rfl, length_bounds _⟩
theorem div (a b d : Byte) : Statement (.div a b d) := fun _ => ⟨rfl, rfl, length_bounds _⟩
theorem jmp (t : Addr) : Statement (.jmp t) := fun _ => ⟨rfl, rfl, length_bounds _⟩
theorem jz (reg : Byte) (t : Addr) : Statement (.jz reg t) := fun _ => ⟨rfl, rfl, length_bounds _⟩
theorem push (reg : Byte) : Statement (.push reg) := fun _ => ⟨rfl, rfl, length_bounds _⟩
theorem pop (reg : Byte) : Statement (.pop reg) := fun _ => ⟨rfl, rfl, length_bounds _⟩
theorem print (reg : Byte) : Statement (.print reg) := fun _ => ⟨rfl, rfl, length_bounds _⟩

end Sys2Proof.Laws.EncodedLength
end

