-- ==== Sys2Proof/Laws/Step.lean ====
section
/-! SUPPORT. Everything one iteration of the loop can do, said once; whole-machine rules are case analyses over it. -/

namespace Sys2Proof.Machine

/-- Every handler answers a next state. -/
theorem exec_next (i : Instr) (s : State) : ∃ t, exec i s = .next t := by
  rcases exec_inversion i s with ⟨t, h, -⟩ | ⟨_, _, h, -⟩
  · exact ⟨t, h⟩
  · exact ⟨_, h⟩

/-- What no handler changes: the parameters, the memory image, the latches, the sequencer and the host's side. -/
theorem exec_keeps (i : Instr) (s t : State) (h : exec i s = .next t) :
    t.params = s.params ∧ t.mem = s.mem ∧ t.ir = s.ir ∧ t.seq = s.seq ∧ t.commands = s.commands ∧ t.replies = s.replies ∧
      t.draws = s.draws := by
  rcases exec_inversion i s with ⟨u, h', e⟩ | ⟨_, _, h', -⟩ <;> rw [h'] at h <;> cases h
  · cases e <;> exact ⟨rfl, rfl, rfl, rfl, rfl, rfl, rfl⟩
  · exact ⟨rfl, rfl, rfl, rfl, rfl, rfl, rfl⟩

/-- An iteration begins with the test of `running` (40_execute_loop.md R130). -/
theorem iteration_stopped (s : State) (h : s.running = false) :
    iteration s = .next s.endIteration := by
  rw [iteration, if_neg (by rw [h]; exact Bool.false_ne_true)]

/-- An iteration while `running`: a fetch fault, or the handler of the instruction the bytes at `pc` decode to, in the state
the fetch leaves; and then the loop's test. -/
theorem iteration_cases (s t : State) (hm : s.params.memorySize ≤ 65536) (hr : s.running = true) (h : iteration s = .next t) :
    ((∀ i rest, decodeWith s.params.opcodeMap s.fetchWindow ≠ .ok (i, rest)) ∧ ∃ sub value pc ir, FetchFault s sub pc ∧
      t = (({ s with pc := pc, ir := ir } : State).raiseFault sub s.pc value).endIteration) ∨
    ∃ i rest ir u, decodeWith s.params.opcodeMap s.fetchWindow = .ok (i, rest) ∧
      s.pc.toNat + 1 + operandCount i.mnemonic ≤ s.params.memorySize ∧ Latched s (operandCount i.mnemonic) ir ∧
      exec i { s with pc := s.pc + BitVec.ofNat 17 (1 + operandCount i.mnemonic), ir := ir } = .next u ∧
      t = u.endIteration := by
  rw [iteration, if_pos hr] at h
  rcases fetchDecode_decode s hm with ⟨hn, sub, value, pc, ir, hf, e⟩ | ⟨i, rest, ir, hw, hl, hi, e⟩
  · rw [e] at h
    cases h
    exact .inl ⟨hn, sub, value, pc, ir, hf, rfl⟩
  · obtain ⟨u, hu⟩ :=
      exec_next i { s with pc := s.pc + BitVec.ofNat 17 (1 + operandCount i.mnemonic), ir := ir }
    rw [e] at h
    simp only [hu, afterHandler] at h
    cases h
    exact .inr ⟨i, rest, ir, u, hw, hl, hi, hu, rfl⟩

/-- What an iteration can change, whatever the parameters are: for rules about state that the fetch does not touch. -/
theorem iteration_touches (s t : State) (h : iteration s = .next t) :
    (s.running = false ∧ t = s.endIteration) ∨
    (s.running = true ∧ ∃ sub v pc ir, t = (({ s with pc := pc, ir := ir } : State).raiseFault sub s.pc v).endIteration) ∨
    (s.running = true ∧ ∃ i pc ir u, exec i { s with pc := pc, ir := ir } = .next u ∧ t = u.endIteration) := by
  rw [iteration] at h
  split at h
  · rename_i hr
    rcases fetchDecode_touches s with ⟨sub, pc, ir, v, e⟩ | ⟨i, pc, ir, e⟩ <;> rw [e] at h
    · cases h; exact .inr (.inl ⟨hr, _, _, _, _, rfl⟩)
    · obtain ⟨u, hu⟩ := exec_next i { s with pc := pc, ir := ir }
      simp only [hu, afterHandler] at h
      cases h
      exact .inr (.inr ⟨hr, i, pc, ir, u, hu, rfl⟩)
  · rename_i hr
    cases h
    exact .inl ⟨by simpa using hr, rfl⟩

end Sys2Proof.Machine
end

