-- ==== Sys2Proof/Machine/Diagnostics.lean ====
section
/-! DEFINITION. The text of the diagnostic output channel (60_exceptions.md R281). The channel is a list of events; the text of
a line is no part of the contract, but for a `Print(v)`, which a test that compares text renders as the decimal digits of
`v`. -/

namespace Sys2Proof.Machine

/-- The text of an event; none for a `Fault` event, whose wording the spec leaves open (93 U2). -/
def Event.text : Event → Option (List Char)
  | .print v => some (Nat.toDigits 10 v.toNat)
  | .fault _ => none

end Sys2Proof.Machine
end

