-- ==== Sys2Proof/Tests/Slice0.lean ====
section
/-! SUPPORT. Tests. Expected results come from the vectors of 95_test_vectors.md (V…, S…, P…), the table of 30_encoding.md
R123, or hand calculation from the rules. Then the witnesses: for each obligation with hypotheses, concrete data that meet
them all, and each clause at the boundary values of its range. -/

namespace Sys2Proof.Tests

open Sys2Proof.Machine Sys2Proof.Spec Sys2Proof.Safety

/-- The convention of 95_test_vectors.md section 0 for a step vector, on an instance with the given parameters: the bytes at
`pc`, `running` true, an EXECUTE in progress, and every other field as after INIT. -/
def beforeOn (p : Config.Params) (pc : Pc) (bytes : List Byte) : State :=
  { State.fresh p with mem := Memory.writeBytes [] pc.toNat bytes, pc := pc, running := true, seq := .fetchOp }

/-- The same on the default instance. -/
def before (pc : Pc) (bytes : List Byte) : State := beforeOn defaultParams pc bytes

/-- A second OPCODE_MAP, not the default one. -/
def otherMap : Config.OpcodeMap := { opcodeMap with halt := 0xFF, load := 0x00, add := 0x01 }

/-- The largest memory R7 allows, twelve registers, another map, and SP_AFTER_RESET at 0. -/
def large : Config.Params := ⟨65536, 12, otherMap, 0⟩

/-- The smallest instance R7 allows: one cell and one register. -/
def tiny : Config.Params := ⟨1, 1, opcodeMap, 0⟩

/-- The state after one step. -/
def after (s : State) : Option State :=
  match step s with
  | .next t => some t
  | .fault _ => none
  | .refused _ => none

/-- What a function gives of the state after one step. -/
def seen {α : Type} (s : State) (f : State → α) : Option α := (after s).map f

/-! ### WellFormed: one ill-formed term for each check -/

theorem smoke_load_reg : (Instr.load 8 0).wf defaultParams = false := by decide
theorem smoke_load_any_value : (Instr.load 7 255).wf defaultParams = true := by decide
theorem smoke_add_regA : (Instr.add 8 0 0).wf defaultParams = false := by decide
theorem smoke_add_regB : (Instr.add 0 8 0).wf defaultParams = false := by decide
theorem smoke_add_regDst : (Instr.add 0 0 8).wf defaultParams = false := by decide
theorem smoke_sub_regA : (Instr.sub 255 0 0).wf defaultParams = false := by decide
theorem smoke_sub_regB : (Instr.sub 0 255 0).wf defaultParams = false := by decide
theorem smoke_sub_regDst : (Instr.sub 0 0 255).wf defaultParams = false := by decide
theorem smoke_mul_regA : (Instr.mul 8 0 0).wf defaultParams = false := by decide
theorem smoke_mul_regB : (Instr.mul 0 8 0).wf defaultParams = false := by decide
theorem smoke_mul_regDst : (Instr.mul 0 0 8).wf defaultParams = false := by decide
theorem smoke_div_regA : (Instr.div 8 0 0).wf defaultParams = false := by decide
theorem smoke_div_regB : (Instr.div 0 8 0).wf defaultParams = false := by decide
theorem smoke_div_regDst : (Instr.div 0 0 8).wf defaultParams = false := by decide
theorem smoke_jmp_address : (Instr.jmp 256).wf defaultParams = false ∧ (Instr.jmp 255).wf defaultParams = true := by decide
theorem smoke_jz_reg : (Instr.jz 8 0).wf defaultParams = false := by decide
theorem smoke_jz_address : (Instr.jz 7 256).wf defaultParams = false ∧ (Instr.jz 7 255).wf defaultParams = true := by decide
theorem smoke_push_reg : (Instr.push 8).wf defaultParams = false := by decide
theorem smoke_pop_reg : (Instr.pop 8).wf defaultParams = false := by decide
theorem smoke_print_reg : (Instr.print 8).wf defaultParams = false := by decide
theorem smoke_opcode_map : ({ opcodeMap with print := 0x00 } : Config.OpcodeMap).wf = false := by decide
theorem smoke_params_memorySize : ({ defaultParams with memorySize := 0 } : Config.Params).wf = false ∧
    ({ defaultParams with memorySize := 65537, spAfterReset := 65536 } : Config.Params).wf = false := by decide
theorem smoke_params_numRegisters : ({ defaultParams with numRegisters := 0 } : Config.Params).wf = false ∧
    ({ defaultParams with numRegisters := 257 } : Config.Params).wf = false := by decide
theorem smoke_params_opcodeMap :
    ({ defaultParams with opcodeMap := { opcodeMap with load := 0x00 } } : Config.Params).wf = false := by decide
theorem smoke_params_spAfterReset : ({ defaultParams with spAfterReset := 1 } : Config.Params).wf = false ∧
    ({ defaultParams with spAfterReset := 0 } : Config.Params).wf = true := by decide
theorem smoke_params_default : defaultParams.wf = true := by decide

/-! ### Decode: words written out from 30_encoding.md R101, R102, R123 -/

theorem test_decode_halt : decode [0b00000000] = .ok (.halt, []) := rfl
theorem test_decode_load : decode [0b00000001, 0b00000000, 0b00000101] = .ok (.load 0 5, []) := rfl
theorem test_decode_add : decode [0b00000010, 0b00000000, 0b00000001, 0b00000010] = .ok (.add 0 1 2, []) := rfl
theorem test_decode_sub : decode [0b00000011, 0b00000001, 0b00000000, 0b00000010] = .ok (.sub 1 0 2, []) := rfl
theorem test_decode_mul : decode [0b00000100, 0b00000011, 0b00000100, 0b00000101] = .ok (.mul 3 4 5, []) := rfl
theorem test_decode_div : decode [0b00000101, 0b00000000, 0b00000001, 0b00000010] = .ok (.div 0 1 2, []) := rfl
theorem test_decode_jmp : decode [0b00000110, 0b00000001, 0b00101100] = .ok (.jmp 300, []) := rfl
theorem test_decode_jz : decode [0b00000111, 0b00000010, 0b00000000, 0b00001010] = .ok (.jz 2 10, []) := rfl
theorem test_decode_push : decode [0b00001000, 0b00000011] = .ok (.push 3, []) := rfl
theorem test_decode_pop : decode [0b00001001, 0b00000111] = .ok (.pop 7, []) := rfl
theorem test_decode_print : decode [0b00001010, 0b00000010] = .ok (.print 2, []) := rfl
/-- The rest of the list is given back, and an index that names no register decodes (R105). -/
theorem test_decode_rest : decode [0x0A, 0xFF, 0x00] = .ok (.print 255, [0x00]) := rfl
theorem test_decode_illegal : decode [0x0B, 0x00] = .error (.illegalOpcode 0x0B) := rfl
theorem test_decode_truncated : decode [0x07, 0x00, 0x00] = .error (.truncated .jz) := rfl
theorem test_decode_empty : decode [] = .error .noOpcode := rfl
/-- The table's words: byte 0 is the most significant byte of W. -/
theorem test_tableWord : decodeTableWord 32 0x02000102 = some (.add 0 1 2) ∧
    decodeTableWord 24 0x060006 = some (.jmp 6) ∧ decodeTableWord 32 0x0700000A = some (.jz 0 10) ∧
    decodeTableWord 24 0x010005 = some (.load 0 5) ∧ decodeTableWord 16 0x0A02 = some (.print 2) ∧
    decodeTableWord 8 0x00 = some .halt ∧ decodeTableWord 8 0x0B = none := by decide

/-! ### One step of each instruction -/

theorem test_halt_V1 : seen (before 0 [0x00]) (fun t => (t.pc, t.running, t.fault, t.seq)) =
    some (1, false, none, .idle) := by decide
theorem test_halt_V7 : seen (before 255 [0x00]) (fun t => (t.pc, t.running, t.fault)) = some (256, false, none) := by
  decide
theorem test_load_V11 : seen (before 0 [0x01, 0x07, 0xFF]) (fun t => (t.x 7, t.x 0, t.pc, t.running)) =
    some (255, 0, 3, true) := by decide
theorem test_load_V13 : seen (before 0 [0x01, 0x08, 0x01]) (fun t => (t.regs, t.pc, t.out, t.running)) =
    some (State.reset.regs, 3, [.fault ⟨.registerIndex, some 0, 8⟩], false) := by decide
theorem test_add_V23 : seen ((before 0 [0x02, 0x00, 0x00, 0x00]).setX 0 200) (fun t => (t.x 0, t.pc)) =
    some (144, 4) := by decide
theorem test_add_V27 : seen (before 0 [0x02, 0x00, 0x09, 0x08]) (fun t => (t.fault, t.pc)) =
    some (some ⟨.registerIndex, some 0, 9⟩, 4) := by decide
theorem test_sub_V34 : seen (((before 0 [0x03, 0x01, 0x00, 0x02]).setX 0 5).setX 1 3) (fun t => t.x 2) =
    some 254 := by decide
theorem test_sub_V35 : seen (before 0 [0x03, 0x00, 0x01, 0x0C]) (fun t => t.fault) =
    some (some ⟨.registerIndex, some 0, 12⟩) := by decide
theorem test_mul_V43 : seen (((before 0 [0x04, 0x03, 0x04, 0x05]).setX 3 3).setX 4 100) (fun t => t.x 5) =
    some 44 := by decide
theorem test_mul_V41 : seen ((before 0 [0x04, 0x00, 0x00, 0x01]).setX 0 255) (fun t => t.x 1) = some 1 := by decide
theorem test_div_V50 : seen (((before 0 [0x05, 0x00, 0x01, 0x02]).setX 0 7).setX 1 2) (fun t => (t.x 2, t.running)) =
    some (3, true) := by decide
theorem test_div_V56 : seen (((before 0 [0x05, 0x00, 0x01, 0x02]).setX 0 7).setX 2 99)
    (fun t => (t.x 2, t.pc, t.out)) = some (99, 4, [.fault ⟨.divideByZero, some 0, 1⟩]) := by decide
theorem test_print_V61 : seen ((before 0 [0x0A, 0x05]).setX 5 255) (fun t => (t.out, t.pc, t.x 5, t.running)) =
    some ([.print 255], 2, 255, true) := by decide
theorem test_print_V62 : seen (before 0 [0x0A, 0x08]) (fun t => (t.out, t.pc)) =
    some ([.fault ⟨.registerIndex, some 0, 8⟩], 2) := by decide
theorem test_jmp_V71 : seen (before 0 [0x06, 0x00, 0xFF]) (fun t => (t.pc, t.running)) = some (255, true) := by decide
theorem test_jmp_V73 : seen (before 0 [0x06, 0x01, 0x2C]) (fun t => (t.fault, t.pc)) =
    some (some ⟨.jumpAddress, some 0, 300⟩, 3) := by decide
theorem test_jz_V80 : seen (before 0 [0x07, 0x00, 0x00, 0x0A]) (fun t => t.pc) = some 10 := by decide
theorem test_jz_V84 : seen ((before 0 [0x07, 0x00, 0x01, 0x00]).setX 0 1) (fun t => (t.fault, t.pc)) =
    some (some ⟨.jumpAddress, some 0, 256⟩, 4) := by decide
theorem test_push_V91 : seen ({ before 0 [0x08, 0x02] with sp := 1 }.setX 2 5)
    (fun t => (t.stackAt 1, t.sp, t.running)) = some (5, 0, true) := by decide
theorem test_push_V92 : seen { before 0 [0x08, 0x00] with sp := 0 } (fun t => (t.fault, t.pc, t.sp, t.stackAt 0)) =
    some (some ⟨.stackUnderflow, some 0, 0⟩, 2, 0, 0) := by decide
theorem test_pop_V94 : seen { before 0 [0x09, 0x01] with sp := 254, stack := [(255, 42)] }
    (fun t => (t.sp, t.x 1, t.stackAt 255, t.pc)) = some (255, 42, 42, 2) := by decide
theorem test_pop_V96 : seen ((before 0 [0x09, 0x03]).setX 3 7) (fun t => (t.fault, t.pc, t.x 3, t.sp)) =
    some (some ⟨.stackOverflow, some 0, 255⟩, 2, 7, 255) := by decide

/-! ### The fetch and the loop -/

theorem test_fetch_V2 : seen { before 0 [] with pc := 256 } (fun t => (t.fault, t.pc)) =
    some (some ⟨.fetchOpcode, some 256, 256⟩, 256) := by decide
theorem test_fetch_V4 : seen (before 0 [0xFF]) (fun t => (t.fault, t.pc)) =
    some (some ⟨.illegalOpcode, some 0, 0xFF⟩, 1) := by decide
theorem test_fetch_V6 : seen (before 254 [0x07, 0x00]) (fun t => (t.fault, t.pc)) =
    some (some ⟨.fetchOperand, some 254, 256⟩, 256) := by decide
theorem test_fetch_latches : seen (before 0 [0x02, 0x03, 0x04, 0x05]) (fun t => t.ir) =
    some ⟨0x02, 0x03, 0x04, 0x05⟩ := by decide
/-- A block in IDLE with no run in progress: the model's choice (notes/assumptions 26). -/
theorem test_runExecute_idle : runExecute 5 State.reset = .next (.halted State.reset) := rfl
theorem test_execute_V8 : seen { State.reset with commands := [.execute] } (fun t => (t.seq, t.replies, t.out)) =
    some (.idle, [.executeReturned], []) := by decide

/-! ### Host commands -/

set_option maxRecDepth 8000 in
/-- S8c: a refused LOAD leaves `running` true. -/
theorem test_load_S8c :
    seen { State.reset with running := true, commands := [.load (List.replicate 257 0x0A)] }
      (fun t => (t.running, t.mem, t.replies, t.out)) =
      some (true, [], [.loadRefused], [.fault ⟨.programTooLong, none, 257⟩]) := by decide
/-- V105: LOAD does not reset `pc`, and keeps the tail of the memory image. -/
theorem test_load_V105 :
    seen { State.reset with pc := 4, mem := [(0, 1), (7, 9)], commands := [.load [0x0A, 0x00, 0x0B]] }
      (fun t => (t.pc, t.mem, t.running, t.replies)) = some (4, [(0, 10), (2, 11), (7, 9)], true, [.loadOk]) := by decide
/-- R304: RESET of a used block. -/
theorem test_reset : seen { (before 0 [0x00]).setX 3 9 with seq := .idle, commands := [.reset], out := [.print 1] }
    (fun t => (t.mem, t.regs, t.running, t.out, t.sp)) = some ([], State.reset.regs, false, [.print 1], 255) := by decide
/-- S10b: the parameter SP_AFTER_RESET at 0, where RESET leaves the stack in the full position. -/
theorem test_reset_S10b : seen { State.fresh { defaultParams with spAfterReset := 0 } with commands := [.reset] }
    (fun t => t.sp) = some 0 := by decide
/-- withFetchWord: the next step runs the word, at an operand too. -/
theorem test_withFetchWord : seen (State.reset.withFetchWord 24 0x010705) (fun t => (t.x 7, t.pc)) = some (5, 3) ∧
    seen ({ State.reset with pc := 255 }.withFetchWord 24 0x060000) (fun t => t.pc) = some 0 := by decide

/-- R281: the source's example output is "8". -/
theorem test_print_text : (Event.print 8).text = some ['8'] ∧ (Event.print 200).text = some ['2', '0', '0'] := by decide

/-! ### Other instances (R7) -/

theorem test_spWidth : defaultParams.spWidth = 8 ∧ large.spWidth = 16 ∧ tiny.spWidth = 1 ∧
    (⟨257, 8, opcodeMap, 256⟩ : Config.Params).spWidth = 9 := by decide
/-- 93 U13: MEMORY_SIZE 0, and a map that is not injective, are refused. -/
theorem test_build_U13 : (build { defaultParams with memorySize := 0, spAfterReset := 0 }) =
      .refused .illFormedParameters ∧
    (build { defaultParams with opcodeMap := { opcodeMap with add := 0x00 } }) = .refused .illFormedParameters :=
  ⟨build_refused _ (by decide), build_refused _ (by decide)⟩
theorem test_build_large : large.wf = true ∧ tiny.wf = true := by decide
/-- R40, R132: after a HALT in the last cell of the largest memory `pc` is MEMORY_SIZE, where a fetch faults. -/
theorem test_large_last : seen (beforeOn large 65535 [0xFF]) (fun t => (t.pc, t.running, t.fault)) =
      some (65536, false, none) ∧
    seen (beforeOn large 65536 []) (fun t => (t.fault, t.pc)) =
      some (some ⟨.fetchOpcode, some 65536, 65536⟩, 65536) := by decide
/-- R201: every 16-bit address is a target in the largest memory; address 1 is none in the smallest. R160: register 11. -/
theorem test_large_jmp : seen (beforeOn large 0 [0x06, 0xFF, 0xFF]) (fun t => t.pc) = some 65535 ∧
    seen (beforeOn { tiny with memorySize := 4, spAfterReset := 3 } 0 [0x06, 0x00, 0x04]) (fun t => t.fault) =
      some (some ⟨.jumpAddress, some 0, 4⟩) ∧
    seen (beforeOn large 0 [0x00, 0x0B, 0x2A]) (fun t => t.x 11) = some 42 ∧
    seen (beforeOn large 0 [0x00, 0x0C, 0x2A]) (fun t => t.fault) = some (some ⟨.registerIndex, some 0, 12⟩) := by
  decide
/-- R231, R232: the stack of the largest memory, and of a memory of two cells. -/
theorem test_large_stack : seen ((beforeOn large 0 [0x08, 0x00]).setX 0 7) (fun t => (t.stackAt 65535, t.sp)) =
      some (7, 65534) ∧
    seen { beforeOn large 0 [0x09, 0x00] with sp := 65534, stack := [(65535, 9)] } (fun t => (t.x 0, t.sp)) =
      some (9, 65535) ∧
    seen (beforeOn { tiny with memorySize := 2, spAfterReset := 1 } 0 [0x08, 0x00]) (fun t => (t.sp, t.running)) =
      some (0, true) ∧
    seen (beforeOn { tiny with memorySize := 2, spAfterReset := 1 } 0 [0x09, 0x00]) (fun t => t.fault) =
      some (some ⟨.stackOverflow, some 0, 1⟩) := by decide

/-! ### The assembler -/

/-- S4 as the source writes it. -/
theorem test_assemble_S4 :
    assembleText "LOAD 0 0; JZ 0 <addr>; PRINT 1; HALT; <addr>: LOAD 1 9; PRINT 1; HALT".toList =
      some [0x01, 0x00, 0x00, 0x07, 0x00, 0x00, 0x0A, 0x0A, 0x01, 0x00, 0x01, 0x01, 0x09, 0x0A, 0x01, 0x00] := by
  decide
theorem test_assemble_out_of_range : assembleText "LOAD 0 256".toList = none ∧ assembleText "JMP 65536".toList = none ∧
    assembleText "JMP 300".toList = some [0x06, 0x01, 0x2C] := by decide
/-- The model's choices at a label (notes/assumptions 24). -/
theorem test_assemble_label_spacing : assembleText "  loop: JMP loop ; HALT ".toList = some [0x06, 0x00, 0x00, 0x00] ∧
    assembleText "loop:HALT".toList = none ∧ assembleText "a: b: HALT".toList = none ∧
    assembleText "a:; HALT".toList = none := by decide

/-! ### Witnesses: encoding

Each theorem names its obligation and meets its hypotheses. -/

theorem witness_DecodeOfEncodeIsTheInstruction : opcodeMap.wf = true ∧ otherMap.wf = true := by decide
theorem witness_EncodeOfDecodeIsTheBytes :
    decodeWith otherMap [0x01, 0xFF, 0x08, 0x07, 0x0A] = .ok (.add 255 8 7, [0x0A]) := rfl
/-- Both clauses, at the two bytes where they meet. -/
theorem witness_DispatcherInvertsTheOpcodeMap : opcodeMap.wf = true ∧ opcodeMap.code .print = 0x0A ∧
    (∀ m, opcodeMap.code m ≠ 0x0B) ∧ ∀ m, otherMap.code m ≠ 0x02 := by
  refine ⟨rfl, rfl, ?_, ?_⟩ <;> intro m <;> cases m <;> decide
/-- The last clause of `WorkedEncodingsDecode`. -/
theorem witness_WorkedEncodingsDecode : ({ State.reset with pc := 3 } : State).params.memorySize = 256 ∧
    ({ State.reset with pc := 3 } : State).pc = 0 + 3 := ⟨rfl, rfl⟩

/-! ### Witnesses: the loop -/

/-- A step vector of a legal instance is stepping. -/
theorem beforeOn_stepping (p : Config.Params) (pc : Pc) (bytes : List Byte) (h : p.wf = true) :
    Stepping (beforeOn p pc bytes) := ⟨h, rfl, rfl⟩

/-- A step vector of the default instance is stepping. -/
theorem before_stepping (pc : Pc) (bytes : List Byte) : Stepping (before pc bytes) :=
  beforeOn_stepping _ _ _ smoke_params_default

/-- At address 0 of the default instance, and at the last address an instruction of four bytes fits in the largest. -/
theorem witness_StepRunsTheDecodedInstruction :
    (Stepping (before 0 [0x00]) ∧ ∃ rest, decodeWith opcodeMap (before 0 [0x00]).fetchWindow = .ok (.halt, rest)) ∧
    (Stepping (beforeOn large 65532 [0x01, 0x07, 0x00, 0xFF]) ∧
      decodeWith otherMap (beforeOn large 65532 [0x01, 0x07, 0x00, 0xFF]).fetchWindow = .ok (.add 7 0 255, [])) :=
  ⟨⟨before_stepping _ _, _, rfl⟩, beforeOn_stepping _ _ _ test_build_large.1, rfl⟩
theorem witness_OpcodeFetchPastTheEndFaults :
    (Stepping (before 256 []) ∧ (before 256 []).params.memorySize ≤ (before 256 []).pc.toNat) ∧
    Stepping (beforeOn large 65536 []) ∧ large.memorySize ≤ (beforeOn large 65536 []).pc.toNat :=
  ⟨⟨before_stepping _ _, by decide⟩, beforeOn_stepping _ _ _ test_build_large.1, by decide⟩
/-- At the last address, with the smallest unassigned opcode byte. -/
theorem witness_UnassignedOpcodeFaults : Stepping (before 255 [0x0B]) ∧ (before 255 [0x0B]).pc.toNat < 256 ∧
    ∀ m, opcodeMap.code m ≠ (before 255 [0x0B]).mem.read (before 255 [0x0B]).pc.toNat := by
  refine ⟨before_stepping _ _, by decide, ?_⟩
  intro m
  cases m <;> decide
/-- JZ one byte short, and LOAD with no operand byte. -/
theorem witness_OperandFetchPastTheEndFaults :
    (Stepping (before 253 [0x07]) ∧ opcodeMap.code .jz = (before 253 [0x07]).mem.read 253 ∧
      256 < 253 + 1 + operandCount .jz) ∧
    (Stepping (before 255 [0x01]) ∧ opcodeMap.code .load = (before 255 [0x01]).mem.read 255 ∧
      256 < 255 + 1 + operandCount .load) :=
  ⟨⟨before_stepping _ _, rfl, by decide⟩, before_stepping _ _, rfl, by decide⟩
/-- One state for each outcome: continue, halt, fault. -/
theorem witness_StepContinuesHaltsOrFaults :
    (Stepping (before 0 [0x0A]) ∧ (before 0 [0x0A]).fault = none ∧ ∃ t, step (before 0 [0x0A]) = .next t ∧
      t.running = true) ∧
    (Stepping (before 0 [0x00]) ∧ (before 0 [0x00]).fault = none ∧ ∃ t, step (before 0 [0x00]) = .next t ∧
      t.running = false ∧ t.fault = none) ∧
    (Stepping (before 0 [0x0B]) ∧ (before 0 [0x0B]).fault = none ∧ ∃ t, step (before 0 [0x0B]) = .next t ∧
      t.fault ≠ none) :=
  ⟨⟨before_stepping _ _, rfl, _, rfl, rfl⟩, ⟨before_stepping _ _, rfl, _, rfl, rfl, rfl⟩,
    before_stepping _ _, rfl, _, rfl, by decide⟩
/-- The four clauses. -/
theorem witness_ExecuteLoopsWhileRunning :
    (∃ s : State, s.seq = .idle ∧ s.commands = [.execute] ∧ s.running = false) ∧
    (∃ s : State, s.seq = .idle ∧ s.commands = [.execute] ∧ s.running = true) ∧
    (∃ s : State, s.seq = .fetchOp ∧ s.running = false) ∧
    (∃ s t, Stepping s ∧ step s = .next t ∧ t.running = true) ∧
    ∃ s t, Stepping s ∧ step s = .next t ∧ t.running = false :=
  ⟨⟨{ State.reset with commands := [.execute] }, rfl, rfl, rfl⟩,
    ⟨{ State.reset with commands := [.execute], running := true }, rfl, rfl, rfl⟩,
    ⟨{ State.reset with seq := .fetchOp }, rfl, rfl⟩, ⟨before 0 [0x0A], _, before_stepping _ _, rfl, rfl⟩,
    before 0 [0x00], _, before_stepping _ _, rfl, rfl⟩

/-! ### Witnesses: the instructions. `handler k` is a state where the fetch of `k` bytes from 0 leaves `pc`. -/

/-- A handler's state, `k` bytes after its opcode byte at 0, with `sp` and the registers given. -/
def handler (k : Nat) (sp : Sp) (regs : List Byte) : State :=
  { State.reset with pc := BitVec.ofNat 17 k, sp := sp, regs := regs, running := true, seq := .fetchOp }

/-- Registers with the values 0, 1, 255, 128, 0, 0, 0, 7. -/
def someRegs : List Byte := [0, 1, 255, 128, 0, 0, 0, 7]

/-- The register file of `handler` has NUM_REGISTERS cells; 7 is the last register and 8 is none. -/
theorem handler_registers (k : Nat) (sp : Sp) :
    (handler k sp someRegs).regs.length = (handler k sp someRegs).params.numRegisters ∧
    IsRegister (handler k sp someRegs) 7 ∧ ¬ IsRegister (handler k sp someRegs) 8 :=
  ⟨rfl, show (7 : Byte).toNat < 8 by decide, show ¬ (8 : Byte).toNat < 8 by decide⟩

/-- HALT at the last address. -/
theorem witness_HaltStopsTheRun : Stepping (before 255 [0x00]) ∧
    decode (before 255 [0x00]).fetchWindow = .ok (.halt, []) := ⟨before_stepping _ _, rfl⟩
/-- The indices on both sides of the bound are in `handler_registers`, here and for every instruction below. -/
theorem witness_LoadWritesTheImmediate : (handler 3 255 someRegs).pc = 0 + 3 ∧
    (handler 3 255 someRegs).regs.length = 8 := by decide
/-- Also for SUB and MUL: the sum, the difference and the product wrap. -/
theorem witness_AddWritesTheSumModulo256 : (handler 4 255 someRegs).pc = 0 + 4 ∧
    256 ≤ ((handler 4 255 someRegs).x 2).toNat + ((handler 4 255 someRegs).x 3).toNat := by decide
theorem witness_SubWritesTheDifferenceModulo256 : (handler 4 255 someRegs).pc = 0 + 4 ∧
    ((handler 4 255 someRegs).x 2).toNat ≤ ((handler 4 255 someRegs).x 2).toNat ∧
    ¬ ((handler 4 255 someRegs).x 2).toNat ≤ ((handler 4 255 someRegs).x 1).toNat := by decide
theorem witness_MulWritesTheProductModulo256 : (handler 4 255 someRegs).pc = 0 + 4 ∧
    256 ≤ ((handler 4 255 someRegs).x 2).toNat * ((handler 4 255 someRegs).x 3).toNat := by decide
/-- A divisor of 1 and a divisor of 0. -/
theorem witness_DivWritesTheQuotientOrFaults : (handler 4 255 someRegs).pc = 0 + 4 ∧
    ((handler 4 255 someRegs).x 1).toNat ≠ 0 ∧ ((handler 4 255 someRegs).x 0).toNat = 0 := by decide
theorem witness_PrintEmitsTheRegister : (handler 2 255 someRegs).pc = 0 + 2 := by decide
/-- The targets 255 and 256. -/
theorem witness_JmpLoadsTheTarget : (handler 3 255 someRegs).pc = 0 + 3 ∧
    ((255 : Addr).toNat = 256 * (0 : Byte).toNat + (255 : Byte).toNat ∧ (255 : Addr).toNat < 256) ∧
    ((256 : Addr).toNat = 256 * (1 : Byte).toNat + (0 : Byte).toNat ∧ 256 ≤ (256 : Addr).toNat) := by decide
/-- Both targets, a register that is zero and one that is not. -/
theorem witness_JzBranchesOnZero : (handler 4 255 someRegs).pc = 0 + 4 ∧
    (255 : Addr).toNat = 256 * (0 : Byte).toNat + (255 : Byte).toNat ∧
    (256 : Addr).toNat = 256 * (1 : Byte).toNat + (0 : Byte).toNat ∧
    ((handler 4 255 someRegs).x 0).toNat = 0 ∧ ((handler 4 255 someRegs).x 1).toNat ≠ 0 := by decide
/-- `sp` at 0 and at 1. -/
theorem witness_PushWritesThenDecrements : (handler 2 0 someRegs).pc = 0 + 2 ∧ (handler 2 0 someRegs).stack.wf ∧
    (handler 2 0 someRegs).sp.toNat = 0 ∧ (handler 2 1 someRegs).sp.toNat ≠ 0 :=
  ⟨rfl, Memory.nil_wf, rfl, by decide⟩
/-- `sp` at 255 and at 254. -/
theorem witness_PopIncrementsThenReads : (handler 2 255 someRegs).pc = 0 + 2 ∧
    (handler 2 255 someRegs).params.wf = true ∧ 255 ≤ (handler 2 255 someRegs).sp.toNat ∧
    (handler 2 254 someRegs).sp.toNat < 255 := by decide
/-- Divisors 0 and 1. -/
theorem witness_AluKeepsExactResultsModulo256 : (1 : Byte).toNat ≠ 0 ∧ (0 : Byte).toNat = 0 := by decide
/-- The two faults are raised. -/
theorem witness_StackFaultsKeepTheSourceNames :
    (∃ t r, exec (.push 7) (handler 2 0 someRegs) = .next t ∧ t.out = [] ++ [Event.fault r] ∧
      r.subcause = .stackUnderflow) ∧
    ∃ t r, exec (.pop 7) (handler 2 255 someRegs) = .next t ∧ t.out = [] ++ [Event.fault r] ∧
      r.subcause = .stackOverflow :=
  ⟨⟨_, _, rfl, rfl, rfl⟩, _, _, rfl, rfl, rfl⟩
/-- A division by 0, and an overflowing ADD. -/
theorem witness_DivideByZeroIsTheOnlyArithmeticFault :
    (handler 4 255 someRegs).x 0 = 0 ∧
    (∃ t r, exec (.div 1 0 2) (handler 4 255 someRegs) = .next t ∧ t.out = [] ++ [Event.fault r] ∧
      r.cause = .arithmetic) ∧
    ((Instr.add 2 2 7).wf defaultParams = true ∧ ∃ t, exec (.add 2 2 7) (handler 4 255 someRegs) = .next t) :=
  ⟨rfl, ⟨_, _, rfl, rfl, rfl⟩, rfl, _, rfl⟩

/-! ### Witnesses: frames and faults -/

/-- With and without a fault. -/
theorem witness_RegisterWritingFrame :
    (∃ t, exec (.load 7 1) (handler 3 255 someRegs) = .next t ∧ t.running = true) ∧
    ∃ t, exec (.div 1 0 2) (handler 4 255 someRegs) = .next t ∧ t.running = false := ⟨⟨_, rfl, rfl⟩, _, rfl, rfl⟩
theorem witness_NonStoringFrame :
    (∃ t, exec .halt (handler 1 255 someRegs) = .next t) ∧
    (∃ t, exec (.print 7) (handler 2 255 someRegs) = .next t ∧ t.running = true) ∧
    (∃ t, exec (.jmp 256) (handler 3 255 someRegs) = .next t ∧ t.running = false) ∧
    ∃ t, exec (.jz 0 255) (handler 4 255 someRegs) = .next t ∧ t.pc = 255 :=
  ⟨⟨_, rfl⟩, ⟨_, rfl, rfl⟩, ⟨_, rfl, rfl⟩, _, rfl, rfl⟩
theorem witness_PushFrame : (handler 2 1 someRegs).stack.wf ∧
    (∃ t, exec (.push 7) (handler 2 1 someRegs) = .next t ∧ t.stackAt 1 = 7) ∧
    ∃ t, exec (.push 7) (handler 2 0 someRegs) = .next t ∧ t.running = false :=
  ⟨Memory.nil_wf, ⟨_, rfl, rfl⟩, _, rfl, rfl⟩
theorem witness_PopFrame :
    (∃ t, exec (.pop 7) (handler 2 254 someRegs) = .next t ∧ t.sp = 255) ∧
    ∃ t, exec (.pop 7) (handler 2 255 someRegs) = .next t ∧ t.running = false := ⟨⟨_, rfl, rfl⟩, _, rfl, rfl⟩
/-- Register 3 is neither read nor written by `ADD 1 2 7`. -/
theorem witness_RegisterAccessIsThatOfTheTable : ∃ t, exec (.add 1 2 7) (handler 4 255 someRegs) = .next t ∧
    destination (.add 1 2 7) ≠ some 3 ∧ 3 ∉ sources (.add 1 2 7) :=
  ⟨_, rfl, by decide, by decide⟩
/-- A fetch fault and a handler's fault; also for `PcAfterAFault`. -/
theorem witness_FaultsArePrecise :
    (Stepping (before 0 [0x0B]) ∧ ¬ AtHalt (before 0 [0x0B]) ∧
      ∃ t, step (before 0 [0x0B]) = .next t ∧ t.running = false) ∧
    (Stepping (before 0 [0x08, 0x08]) ∧ ¬ AtHalt (before 0 [0x08, 0x08]) ∧
      ∃ t, step (before 0 [0x08, 0x08]) = .next t ∧ t.running = false) := by
  refine ⟨⟨before_stepping _ _, ?_, _, rfl, rfl⟩, before_stepping _ _, ?_, _, rfl, rfl⟩
  · rintro ⟨rest, h⟩
    exact nomatch (show Except.error (DecodeError.illegalOpcode 0x0B) = Except.ok (Instr.halt, rest) from h)
  · rintro ⟨rest, h⟩
    exact nomatch (show Except.ok (Instr.push 8, [(0 : Byte), 0]) = Except.ok (ε := DecodeError) (Instr.halt, rest) from h)
/-- The fault of each subcause an EXECUTE can raise, at `pc` 0 or the last address. -/
theorem witness_PcAfterAFault :
    seen (before 0 [0x0B]) (fun t => t.fault.map FaultRecord.subcause) = some (some .illegalOpcode) ∧
    seen { before 0 [] with pc := 256 } (fun t => t.fault.map FaultRecord.subcause) = some (some .fetchOpcode) ∧
    seen (before 255 [0x0A]) (fun t => t.fault.map FaultRecord.subcause) = some (some .fetchOperand) ∧
    seen (before 254 [0x0A, 0x08]) (fun t => t.fault.map FaultRecord.subcause) = some (some .registerIndex) := by
  decide
theorem witness_HandlerFaultsAreThoseOfTheTable :
    (∃ t r, exec (.jz 7 256) (handler 4 255 someRegs) = .next t ∧ t.out = [] ++ [Event.fault r]) ∧
    (handler 4 255 someRegs).pc = 0 + BitVec.ofNat 17 (1 + operandCount .jz) := ⟨⟨_, _, rfl, rfl⟩, rfl⟩

/-! ### Witnesses: the stack and the host -/

/-- As many pushes as there is room for, and none. -/
theorem witness_PushesThenPopsRestoreInLifoOrder :
    ((∀ r ∈ [(0 : Byte), 7], IsRegister (handler 2 2 someRegs) r) ∧
      [(0 : Byte), 7].length ≤ (handler 2 2 someRegs).sp.toNat ∧ (handler 2 2 someRegs).stack.wf ∧
      (handler 2 2 someRegs).sp.toNat < (handler 2 2 someRegs).params.memorySize) ∧
    ([] : List Byte).length ≤ (handler 2 0 someRegs).sp.toNat := by
  refine ⟨⟨?_, by decide, Memory.nil_wf, by decide⟩, by decide⟩
  intro r hr
  rcases (show r = 0 ∨ r = 7 by simpa using hr) with rfl | rfl
  · exact show (0 : Byte).toNat < 8 by decide
  · exact (handler_registers 2 2).2.1
/-- The default instance, and the smallest, whose stack holds nothing. -/
theorem witness_StackHoldsOneByteLessThanItsSize :
    ((∀ r ∈ List.replicate 255 (7 : Byte), IsRegister State.reset r) ∧
      (List.replicate 255 (7 : Byte)).length = State.reset.params.memorySize - 1 ∧
      State.reset.sp.toNat = State.reset.params.memorySize - 1 ∧ State.reset.stack.wf) ∧
    ([] : List Byte).length = tiny.memorySize - 1 ∧ (State.fresh tiny).sp.toNat = tiny.memorySize - 1 :=
  ⟨⟨fun r hr => by rw [List.eq_of_mem_replicate hr]; exact show (7 : Byte).toNat < 8 by decide,
    List.length_replicate, rfl, Memory.nil_wf⟩, rfl, rfl⟩
/-- Legal parameters at both ends of the limits, and illegal ones one past each. -/
theorem witness_EveryLegalInstanceIsBuilt : large.wf = true ∧ tiny.wf = true ∧
    ({ large with memorySize := 65537 } : Config.Params).wf = false ∧
    ({ tiny with numRegisters := 0 } : Config.Params).wf = false := by decide
/-- An INIT and a RESET to issue, under both values of SP_AFTER_RESET. -/
theorem witness_InitAndResetZeroTheBlock :
    (∃ s : State, s.params.wf = true ∧ s.seq = .idle ∧ s.commands = [.init]) ∧
    (∃ s : State, s.params.wf = true ∧ s.seq = .idle ∧ s.commands = [.reset] ∧ s.params.spAfterReset = 255) ∧
    ∃ s : State, s.params.wf = true ∧ s.seq = .idle ∧ s.commands = [.reset] ∧ s.params.spAfterReset = 0 :=
  ⟨⟨{ State.reset with commands := [.init] }, smoke_params_default, rfl, rfl⟩,
    ⟨{ State.reset with commands := [.reset] }, smoke_params_default, rfl, rfl, rfl⟩,
    { State.fresh large with commands := [.reset] }, test_build_large.1, rfl, rfl, rfl⟩
/-- 0 and 256 bytes. -/
theorem witness_LoadCommandCopiesTheProgram :
    ({ State.reset with commands := [.load []] } : State).seq = .idle ∧ ([] : List Byte).length ≤ 256 ∧
    (List.replicate 256 (0x0A : Byte)).length ≤ 256 ∧ State.reset.mem.wf :=
  ⟨rfl, by decide, by rw [List.length_replicate], Memory.nil_wf⟩
/-- 257 bytes. -/
theorem witness_LoadCommandRefusesALongProgram :
    ({ State.reset with commands := [.load (List.replicate 257 0x0A)] } : State).seq = .idle ∧
    256 < (List.replicate 257 (0x0A : Byte)).length := ⟨rfl, by rw [List.length_replicate]; decide⟩
/-- An EXECUTE in progress, and an idle block. -/
theorem witness_NoCommandDuringExecute : (before 0 [0x0A]).seq = .fetchOp ∧
    (∃ t, step (before 0 [0x0A]) = .next t) ∧ State.reset.seq = .idle := ⟨rfl, ⟨_, rfl⟩, rfl⟩
/-- A used block with a program to load. -/
theorem witness_ResetMakesTheBlockFresh : ∃ s : State, s.seq = .idle ∧ s.commands = [.reset, .load [0x00], .execute] ∧
    s.params.spAfterReset = s.params.memorySize - 1 ∧ s.x 3 = 9 ∧ s.fault ≠ none :=
  ⟨{ State.reset.setX 3 9 with
      commands := [.reset, .load [0x00], .execute], fault := some ⟨.registerIndex, some 0, 8⟩ },
    rfl, rfl, rfl, rfl, by decide⟩

/-! ### Witnesses: whole-machine rules -/

/-- A state that is stepping meets the invariant. -/
theorem witness_EveryStepKeepsTheInvariant :
    Inv (before 255 [0x00]) ∧ ∃ t, step (before 255 [0x00]) = .next t ∧ t.pc = 256 := by
  refine ⟨⟨smoke_params_default, by decide, by decide, Memory.nil_wf, Memory.nil_within _, rfl, rfl, by decide, by decide,
    fun _ => rfl, ?_⟩, _, rfl, rfl⟩
  intro r h
  exact nomatch (show none = some r from h)
/-- The second clause of `ResetMeetsTheInvariant`. -/
theorem witness_ResetMeetsTheInvariant : build large = .next (State.fresh large) := build_legal _ test_build_large.1
/-- A RESET, which writes the whole register file anew. -/
theorem witness_NothingChangesTheParameters :
    ∃ t, step { State.fresh large with commands := [.reset] } = .next t ∧ t.regs.length = 12 := ⟨_, rfl, rfl⟩
/-- A step of a program, and a LOAD that changes the memory image. -/
theorem witness_OnlyHostCommandsWriteTheMemoryImage :
    ((before 0 [0x08, 0x00]).seq = .fetchOp ∧ ∃ t, step (before 0 [0x08, 0x00]) = .next t) ∧
    ∃ t, step { State.reset with commands := [.load [0x0A]] } = .next t ∧ t.mem ≠ [] :=
  ⟨⟨rfl, _, rfl⟩, _, rfl, by decide⟩
/-- PUSH, and a RESET of a stack that holds a byte. -/
theorem witness_OnlyPushWritesTheStack :
    (∃ t, step ((before 0 [0x08, 0x03]).setX 3 5) = .next t ∧ t.stack ≠ []) ∧
    ∃ t, step { State.reset with stack := [(255, 1)], commands := [.reset] } = .next t ∧ t.stack ≠ [(255, 1)] :=
  ⟨⟨_, rfl, by decide⟩, _, rfl, by decide⟩
/-- Set by a LOAD of 256 bytes; cleared by HALT, a fault and a RESET. -/
theorem witness_RunningIsWrittenOnlyAsListed :
    seen { State.reset with commands := [.load [0x0A]] } (fun t => t.running) = some true ∧
    seen (before 0 [0x00]) (fun t => t.running) = some false ∧
    seen (before 0 [0xFF]) (fun t => t.running) = some false ∧
    seen { State.reset with running := true, commands := [.reset] } (fun t => t.running) = some false := by decide
/-- A fault, and a RESET that clears it. -/
theorem witness_FaultRecordIsSticky :
    seen (before 0 [0xFF]) (fun t => t.fault) ≠ some none ∧
    seen { State.reset with fault := some ⟨.registerIndex, some 0, 8⟩, commands := [.reset] } (fun t => t.fault) =
      some none := by decide
theorem witness_ChannelIsAppendOnly :
    seen (before 0 [0x0A, 0x00]) (fun t => t.out) = some [.print 0] ∧ seen (before 0 [0x00]) (fun t => t.out) = some [] := by
  decide
/-- Two states that differ in the latches, the channel, the results and the draws. -/
theorem witness_LatchesAndChannelAreUnobservable :
    SameToProgram (before 0 [0x0A])
      { before 0 [0x0A] with ir := ⟨1, 2, 3, 4⟩, out := [.print 9], replies := [.loadOk], draws := 4 } ∧
    ∃ t, step (before 0 [0x0A]) = .next t := ⟨⟨rfl, rfl, rfl, rfl, rfl, rfl, rfl, rfl, rfl, rfl⟩, _, rfl⟩
theorem witness_HaltedStateSurvives : State.reset.seq = .idle ∧ State.reset.commands = [] := ⟨rfl, rfl⟩
/-- A run that halts in one step, and one that faults. -/
theorem witness_MoreFuelChangesNoEndedRun :
    (∃ t, runExecute 1 (before 0 [0x00]) = .next (.halted t)) ∧ ∃ t, runExecute 1 (before 0 [0xFF]) = .next (.faulted t) :=
  ⟨⟨_, rfl⟩, _, rfl⟩
/-- V75, and the same at the last address a JMP fits. -/
theorem witness_SelfJumpNeverEnds :
    (Stepping (before 0 [0x06]) ∧ ∃ rest, decode (before 0 [0x06]).fetchWindow = .ok (.jmp 0, rest)) ∧
    (Stepping (before 253 [0x06, 0x00, 0xFD]) ∧
      decode (before 253 [0x06, 0x00, 0xFD]).fetchWindow = .ok (.jmp 253, [])) :=
  ⟨⟨before_stepping _ _, _, rfl⟩, before_stepping _ _, rfl⟩
theorem witness_CanonicalStorageIsDeterminedByItsReads : Memory.wf [(0, 1), (255, 2)] := by decide

end Sys2Proof.Tests
end

section
/-! SUPPORT. Who writes the memory image `M` (20_memory.md R73): no part of the loop, and of the host commands not EXECUTE.
Then O48. -/

namespace Sys2Proof.Machine

/-- The loop's test does not touch the memory image. -/
@[simp] theorem endIteration_mem (s : State) : s.endIteration.mem = s.mem := by
  cases hr : s.running with
  | true => rw [endIteration_running s hr]
  | false => rw [endIteration_stopped s hr, State.reply_mem]

/-- EXECUTE, whether it enters the loop or returns at once, does not touch the memory image. -/
@[simp] theorem hostExecute_mem (s : State) : (hostExecute s).mem = s.mem := by
  unfold hostExecute
  split
  · rfl
  · exact State.reply_mem s _

/-- An iteration of the loop keeps the memory image: neither the fetch, nor a handler, nor a fault writes it. -/
theorem iteration_mem (s t : State) (h : iteration s = .next t) : t.mem = s.mem := by
  rcases iteration_touches s t h with ⟨-, rfl⟩ | ⟨-, sub, v, pc, ir, rfl⟩ | ⟨-, i, pc, ir, u, hu, rfl⟩
  · exact endIteration_mem s
  · rw [endIteration_mem, State.raiseFault_mem]
  · obtain ⟨-, hmem, -⟩ := exec_keeps i _ u hu
    rw [endIteration_mem, hmem]

/-- A step in IDLE: nothing is pending and nothing changes, or the next command is performed. -/
theorem step_idle_cases (s t : State) (hs : s.seq = .idle) (h : step s = .next t) :
    (s.commands = [] ∧ t = s) ∨
      ∃ c rest, s.commands = c :: rest ∧ t = perform c { s with commands := rest } := by
  cases hc : s.commands with
  | nil =>
    rw [step_idle_nil s hs hc] at h
    cases h
    exact .inl ⟨rfl, rfl⟩
  | cons c rest =>
    rw [step_idle_cons s c rest hs hc] at h
    cases h
    exact .inr ⟨c, rest, rfl, rfl⟩

/-- A host command that changes the memory image is INIT, RESET or LOAD. -/
theorem writer_of_perform_mem_ne (c : HostCommand) (s : State) (h : (perform c s).mem ≠ s.mem) :
    c = .init ∨ c = .reset ∨ ∃ p, c = .load p := by
  cases c with
  | init => exact .inl rfl
  | reset => exact .inr (.inl rfl)
  | load p => exact .inr (.inr ⟨p, rfl⟩)
  | execute => exact absurd (hostExecute_mem s) h

/-- Settles O48: a step in FETCH_OP is an iteration of the loop, which keeps the memory image; a step in IDLE that changes
it has performed a pending command, which is not EXECUTE. -/
theorem onlyHostCommandsWriteTheMemoryImage : Obligations.OnlyHostCommandsWriteTheMemoryImage := by
  intro s t h
  cases hs : s.seq with
  | fetchOp =>
    rw [step_fetchOp s hs] at h
    have hmem : t.mem = s.mem := iteration_mem s t h
    exact ⟨fun _ => hmem, fun hne => absurd hmem hne⟩
  | idle =>
    refine ⟨nofun, fun hne => ⟨rfl, ?_⟩⟩
    rcases step_idle_cases s t hs h with ⟨-, rfl⟩ | ⟨c, rest, hc, rfl⟩
    · exact absurd rfl hne
    · exact ⟨c, rest, hc, writer_of_perform_mem_ne c _ hne⟩

end Sys2Proof.Machine
end

section
/-! SUPPORT. A step at an instruction that decodes (40_execute_loop.md R130, R131): its handler runs in the state the fetch
leaves, and then the loop's test. Then O13. -/

namespace Sys2Proof.Machine

open Sys2Proof.Spec

/-- Where the bytes at `pc` decode to `i`, the fetch gives `i` and changes only `pc` and the latches. -/
theorem fetchDecode_of_decode (s : State) (i : Instr) (rest : List Byte) (hm : s.params.memorySize ≤ 65536)
    (hd : decodeWith s.params.opcodeMap s.fetchWindow = .ok (i, rest)) :
    ∃ ir, Latched s (operandCount i.mnemonic) ir ∧ fetchDecode s =
      .ok (i, { s with pc := s.pc + BitVec.ofNat 17 (1 + operandCount i.mnemonic), ir := ir }) := by
  rcases fetchDecode_decode s hm with ⟨hn, -⟩ | ⟨j, rest', ir, hw, -, hl, hf⟩
  · exact absurd hd (hn i rest)
  · rw [hd] at hw
    cases hw
    exact ⟨ir, hl, hf⟩

/-- A step at an instruction is its handler and then the loop's test. -/
theorem step_of_decode (s : State) (i : Instr) (rest : List Byte) (hs : Stepping s)
    (hd : decodeWith s.params.opcodeMap s.fetchWindow = .ok (i, rest)) :
    ∃ ir, Latched s (operandCount i.mnemonic) ir ∧ step s =
      afterHandler (exec i { s with pc := s.pc + BitVec.ofNat 17 (1 + operandCount i.mnemonic), ir := ir }) := by
  obtain ⟨hwf, hseq, hrun⟩ := hs
  obtain ⟨-, hm, -⟩ := params_limits s.params hwf
  obtain ⟨ir, hl, hf⟩ := fetchDecode_of_decode s i rest hm hd
  refine ⟨ir, hl, ?_⟩
  rw [step_fetchOp s hseq, iteration, if_pos hrun, hf]

/-- HALT's handler clears `running` and does nothing else (40_execute_loop.md R140). -/
theorem exec_halt (s : State) : exec .halt s = .next s.clearRunning := rfl

/-- After a handler that has cleared `running`, EXECUTE returns (40_execute_loop.md R130). -/
theorem afterHandler_stopped (t : State) (h : t.running = false) : afterHandler (.next t) = .next (returned t) :=
  congrArg Host.Outcome.next (endIteration_stopped t h)

/-- Settles O13: the step at a HALT is HALT's handler on the state the fetch leaves, with `pc` one past the opcode byte, and
since the handler clears `running` the loop's test ends the EXECUTE. -/
theorem haltStopsTheRun : Obligations.HaltStopsTheRun := by
  refine ⟨fun _ => rfl, exec_halt, fun s rest hs hd => ?_⟩
  obtain ⟨ir, -, hstep⟩ := step_of_decode s .halt rest hs hd
  refine ⟨ir, ?_⟩
  rw [hstep, exec_halt, afterHandler_stopped _ (State.clearRunning_running _)]
  rfl

end Sys2Proof.Machine
end

section
/-! SUPPORT. The faults of a handler, read off the channel (60_exceptions.md R262, R270): a handler that does not fault emits
no fault event, so a fault event tells why the handler faulted. Then O25. -/

namespace Sys2Proof.Machine

open Sys2Proof.Spec

/-- A handler that does not fault emits no fault event: only PRINT emits, and what it emits is a `Print`. -/
theorem Effect.out_ne_fault {s : State} {i : Instr} {t : State} (h : Effect s i t) (r : FaultRecord) :
    t.out ≠ s.out ++ [.fault r] := by
  cases h <;> simp

/-- A handler that emits a fault event has faulted, for the reason and with the value the event's record gives. -/
theorem trapped_of_fault_event (i : Instr) (s t : State) (r : FaultRecord) (h : exec i s = .next t)
    (hout : t.out = s.out ++ [.fault r]) : Trapped s i r.subcause r.value := by
  rcases exec_inversion i s with ⟨u, hu, heff⟩ | ⟨sub, value, hu, htrap⟩
  · rw [hu] at h
    cases h
    exact absurd hout (heff.out_ne_fault r)
  · rw [hu, trap_eq] at h
    cases h
    obtain rfl : (⟨sub, some (s.handlerIpc i.mnemonic), value⟩ : FaultRecord) = r := by simpa using hout
    exact htrap

/-- PUSH of a register at `sp = 0` takes STACK_UNDERFLOW (43_stack.md R231). -/
theorem exec_push_underflow (reg : Byte) (s : State) (hreg : IsRegister s reg) (hsp : s.sp = 0) :
    exec (.push reg) s = trap .push .stackUnderflow s.sp.toNat s := by
  simp only [exec, execPush, checkReg_ok .push reg s _ hreg, stackPush_full s _ hsp]

/-- POP to a register at `sp >= MEMORY_SIZE-1` takes STACK_OVERFLOW (43_stack.md R232). -/
theorem exec_pop_overflow (reg : Byte) (s : State) (hreg : IsRegister s reg)
    (hsp : s.params.memorySize - 1 ≤ s.sp.toNat) :
    exec (.pop reg) s = trap .pop .stackOverflow s.sp.toNat s := by
  simp only [exec, execPop, checkReg_ok .pop reg s _ hreg, stackPop_empty s hsp]

/-- STACK_UNDERFLOW is taken by PUSH at `sp = 0` only. -/
theorem Trapped.push_of_stackUnderflow {s : State} {i : Instr} {value : Nat}
    (h : Trapped s i .stackUnderflow value) : (∃ reg, i = .push reg) ∧ s.sp.toNat = 0 := by
  cases h with
  | stackUnderflow reg hsp => exact ⟨⟨reg, rfl⟩, by rw [hsp]; rfl⟩

/-- STACK_OVERFLOW is taken by POP at `sp >= MEMORY_SIZE-1` only. -/
theorem Trapped.pop_of_stackOverflow {s : State} {i : Instr} {value : Nat}
    (h : Trapped s i .stackOverflow value) :
    (∃ reg, i = .pop reg) ∧ s.params.memorySize - 1 ≤ s.sp.toNat := by
  cases h with
  | stackOverflow reg hsp => exact ⟨⟨reg, rfl⟩, hsp⟩

/-- Settles O25: the two handlers take their faults under the stack_engine's conditions, and a fault event of any handler
tells a reason of `Trapped`, which has one constructor for each of the two subcauses. -/
theorem stackFaultsKeepTheSourceNames : Obligations.StackFaultsKeepTheSourceNames := by
  refine ⟨fun reg s hreg hsp => ?_, fun reg s hreg hsp => ?_, fun i s t r h hout => ?_⟩
  · exact ⟨_, _, exec_push_underflow reg s hreg (BitVec.eq_of_toNat_eq hsp), rfl, rfl⟩
  · exact ⟨_, _, exec_pop_overflow reg s hreg hsp, rfl, rfl⟩
  · have htrap : Trapped s i r.subcause r.value := trapped_of_fault_event i s t r h hout
    exact ⟨fun hsub => (hsub ▸ htrap).push_of_stackUnderflow, fun hsub => (hsub ▸ htrap).pop_of_stackOverflow⟩

end Sys2Proof.Machine
end

section
/-! SUPPORT. The three-register handlers on valid indices (41_load_arith_print.md R162 to R166): the alu_unit alone decides
whether they write or fault, and only its DIV has a case without a result. Then O26. -/

namespace Sys2Proof.Machine

open Sys2Proof.Spec

section
variable {m : Mnemonic} {op : AluOp} {a b d : Byte} {s : State}

/-- On valid indices, where the alu_unit gives no `y`, the handler takes DIVIDE_BY_ZERO. -/
theorem arith_trap (ha : IsRegister s a) (hb : IsRegister s b) (hd : IsRegister s d)
    (hy : alu op (s.x a) (s.x b) = none) : arith m op a b d s = trap m .divideByZero b.toNat s := by
  simp only [arith, checkReg_ok _ _ _ _ ha, checkReg_ok _ _ _ _ hb, checkReg_ok _ _ _ _ hd, hy]

/-- On valid indices, where the alu_unit gives a `y`, the handler writes it and does nothing else. -/
theorem arith_write {y : Byte} (ha : IsRegister s a) (hb : IsRegister s b) (hd : IsRegister s d)
    (hy : alu op (s.x a) (s.x b) = some y) : arith m op a b d s = .next (s.setX d y) := by
  simp only [arith, checkReg_ok _ _ _ _ ha, checkReg_ok _ _ _ _ hb, checkReg_ok _ _ _ _ hd, hy]

/-- The static check of a three-register form says that the three indices are valid in the state. -/
theorem isRegister_of_regInRange
    (h : (regInRange s.params a && regInRange s.params b && regInRange s.params d) = true) :
    IsRegister s a ∧ IsRegister s b ∧ IsRegister s d := by
  simpa only [IsRegister, regInRange, Bool.and_eq_true, decide_eq_true_eq, and_assoc] using h

/-- A three-register form that passes the static check, and for which the alu_unit gives a `y`, emits no event. -/
theorem arith_out {y : Byte} {t : State}
    (hwf : (regInRange s.params a && regInRange s.params b && regInRange s.params d) = true)
    (hy : alu op (s.x a) (s.x b) = some y) (h : arith m op a b d s = .next t) : t.out = s.out := by
  obtain ⟨ha, hb, hd⟩ := isRegister_of_regInRange hwf
  rw [arith_write ha hb hd hy] at h
  cases h
  rfl

end

/-- DIV with a divisor register of 0 takes DIVIDE_BY_ZERO (41_load_arith_print.md R166). -/
theorem exec_div_zero (a b d : Byte) (s : State) (ha : IsRegister s a) (hb : IsRegister s b) (hd : IsRegister s d)
    (h0 : s.x b = 0) : exec (.div a b d) s = trap .div .divideByZero b.toNat s :=
  arith_trap ha hb hd (by rw [h0, alu_div_zero])

/-- DIVIDE_BY_ZERO is the only subcause of the cause ARITHMETIC (60_exceptions.md R261). -/
theorem cause_eq_arithmetic (sub : Subcause) : sub.cause = .arithmetic ↔ sub = .divideByZero := by
  cases sub <;> decide

/-- DIVIDE_BY_ZERO is taken by DIV with a divisor register of 0 only. -/
theorem Trapped.div_of_divideByZero {s : State} {i : Instr} {value : Nat} (h : Trapped s i .divideByZero value) :
    ∃ a b d : Byte, i = .div a b d ∧ IsRegister s b ∧ s.x b = 0 := by
  cases h with
  | divideByZero a b d hb h0 => exact ⟨a, b, d, rfl, hb, h0⟩

/-- Settles O26: DIV takes the fault where the alu_unit gives no result; a fault event tells a reason of `Trapped`, which
has one constructor for the one arithmetic subcause; for ADD, SUB and MUL the alu_unit always gives a result, so on valid
indices the handler only writes a register. -/
theorem divideByZeroIsTheOnlyArithmeticFault : Obligations.DivideByZeroIsTheOnlyArithmeticFault := by
  refine ⟨fun a b d s ha hb hd h0 => ?_, fun i s t r h hout hcause => ?_, fun i s t hm hwf h => ?_⟩
  · exact ⟨_, _, exec_div_zero a b d s ha hb hd h0, rfl, rfl⟩
  · have htrap : Trapped s i r.subcause r.value := trapped_of_fault_event i s t r h hout
    have hsub : r.subcause = .divideByZero := (cause_eq_arithmetic _).mp hcause
    exact ⟨hsub, (hsub ▸ htrap).div_of_divideByZero⟩
  · cases i with
    | add a b d => exact arith_out hwf (alu_add _ _) h
    | sub a b d => exact arith_out hwf (alu_sub _ _) h
    | mul a b d => exact arith_out hwf (alu_mul _ _) h
    | _ => simp [Instr.mnemonic] at hm

end Sys2Proof.Machine
end

section
/-! SUPPORT. The decoder and the encoder under any OPCODE_MAP (30_encoding.md). Both directions go through one form of the
encoding: the opcode byte of a mnemonic, then the first `n(m)` of three operand bytes. Then O1, O2, O3, and O5 over the
assembler. -/

namespace Sys2Proof

/-! ### The address operand (42_control_flow.md R200) -/

theorem addrHi_toNat (t : Addr) : (addrHi t).toNat = t.toNat / 256 := by
  have ht := t.isLt
  rw [addrHi, BitVec.toNat_setWidth, BitVec.toNat_ushiftRight, Nat.shiftRight_eq_div_pow]
  omega

theorem addrLo_toNat (t : Addr) : (addrLo t).toNat = t.toNat % 256 := BitVec.toNat_setWidth ..

theorem address_toNat (hi lo : Byte) : (address hi lo).toNat = 256 * hi.toNat + lo.toNat := by
  have hhi := hi.isLt
  have hlo := lo.isLt
  have hor : hi.toNat <<< 8 + lo.toNat = hi.toNat <<< 8 ||| lo.toNat := Nat.shiftLeft_add_eq_or_of_lt hlo _
  simp only [address, BitVec.toNat_or, BitVec.toNat_shiftLeft, BitVec.toNat_setWidth]
  rw [Nat.mod_eq_of_lt (show lo.toNat < 2 ^ 16 by omega), Nat.mod_eq_of_lt (show hi.toNat < 2 ^ 16 by omega),
    Nat.mod_eq_of_lt (by rw [Nat.shiftLeft_eq]; omega), ← hor, Nat.shiftLeft_eq]
  omega

/-- An address is split into its two bytes in one way only. -/
theorem addrBytes_of_toNat (hi lo : Byte) (t : Addr) (h : t.toNat = 256 * hi.toNat + lo.toNat) :
    addrHi t = hi ∧ addrLo t = lo := by
  have hlo := lo.isLt
  refine ⟨BitVec.eq_of_toNat_eq ?_, BitVec.eq_of_toNat_eq ?_⟩
  · rw [addrHi_toNat]; omega
  · rw [addrLo_toNat]; omega

@[simp] theorem addrHi_address (hi lo : Byte) : addrHi (address hi lo) = hi :=
  (addrBytes_of_toNat hi lo _ (address_toNat hi lo)).1

@[simp] theorem addrLo_address (hi lo : Byte) : addrLo (address hi lo) = lo :=
  (addrBytes_of_toNat hi lo _ (address_toNat hi lo)).2

@[simp] theorem address_addrHi_addrLo (t : Addr) : address (addrHi t) (addrLo t) = t :=
  BitVec.eq_of_toNat_eq (by rw [address_toNat, addrHi_toNat, addrLo_toNat]; omega)

/-! ### The opcode_dispatcher (30_encoding.md R109) -/

theorem Mnemonic.mem_all (m : Mnemonic) : m ∈ Mnemonic.all := by cases m <;> decide

/-- An injective map gives two mnemonics two opcodes (30_encoding.md R102). -/
theorem Config.OpcodeMap.code_injective (map : Config.OpcodeMap) (h : map.wf = true) (m n : Mnemonic)
    (hmn : map.code m = map.code n) : m = n := by
  have hnodup : (Mnemonic.all.map map.code).Nodup := of_decide_eq_true h
  exact List.inj_on_of_nodup_map hnodup m.mem_all n.mem_all hmn

/-- The dispatcher inverts an injective map. -/
theorem dispatch_code (map : Config.OpcodeMap) (h : map.wf = true) (m : Mnemonic) :
    dispatch map (map.code m) = some (m, operandCount m) := by
  cases hf : Mnemonic.all.find? fun n => map.code n == map.code m with
  | none => exact absurd (List.find?_eq_none.mp hf m m.mem_all) (by simp)
  | some n =>
    have hn : n = m := map.code_injective h n m (by simpa using List.find?_some hf)
    simp only [dispatch, hf, hn]

/-- The dispatcher gives no mnemonic for a byte that is no opcode. -/
theorem dispatch_none (map : Config.OpcodeMap) (op : Byte) (h : ∀ m, map.code m ≠ op) : dispatch map op = none := by
  have hf : Mnemonic.all.find? (fun m => map.code m == op) = none :=
    List.find?_eq_none.mpr fun m _ => by simpa using h m
  simp only [dispatch, hf]

/-! ### One form of the encoding -/

/-- The operand bytes of a mnemonic: the first `n(m)` of the three that `instrOf` takes. -/
def operandBytes (m : Mnemonic) (b1 b2 b3 : Byte) : List Byte := [b1, b2, b3].take (operandCount m)

/-- Every instruction is its mnemonic with some operand bytes. -/
theorem exists_instrOf (i : Instr) : ∃ b1 b2 b3, i = instrOf i.mnemonic b1 b2 b3 := by
  cases i with
  | halt => exact ⟨0, 0, 0, rfl⟩
  | load reg value => exact ⟨reg, value, 0, rfl⟩
  | add a b d => exact ⟨a, b, d, rfl⟩
  | sub a b d => exact ⟨a, b, d, rfl⟩
  | mul a b d => exact ⟨a, b, d, rfl⟩
  | div a b d => exact ⟨a, b, d, rfl⟩
  | jmp t => exact ⟨addrHi t, addrLo t, 0, by simp [Instr.mnemonic, instrOf]⟩
  | jz reg t => exact ⟨reg, addrHi t, addrLo t, by simp [Instr.mnemonic, instrOf]⟩
  | push reg => exact ⟨reg, 0, 0, rfl⟩
  | pop reg => exact ⟨reg, 0, 0, rfl⟩
  | print reg => exact ⟨reg, 0, 0, rfl⟩

/-- The encoder writes the opcode byte and the operand bytes. -/
theorem encodeWith_instrOf (map : Config.OpcodeMap) (m : Mnemonic) (b1 b2 b3 : Byte) :
    encodeWith map (instrOf m b1 b2 b3) = map.code m :: operandBytes m b1 b2 b3 := by
  cases m <;> simp [encodeWith, instrOf, operandBytes, operandCount, Config.OpcodeMap.code]

/-- The decoder reads the mnemonic of the opcode byte and its operand bytes. -/
theorem decodeWith_operandBytes (map : Config.OpcodeMap) (op : Byte) (m : Mnemonic) (b1 b2 b3 : Byte) (rest : List Byte)
    (hd : dispatch map op = some (m, operandCount m)) :
    decodeWith map (op :: operandBytes m b1 b2 b3 ++ rest) = .ok (instrOf m b1 b2 b3, rest) := by
  cases m <;> simp [decodeWith, hd, operandBytes, operandCount, instrOf]

/-- Bytes that decode are an opcode byte that the dispatcher knows, the operand bytes of its mnemonic, and the bytes left. -/
theorem decodeWith_ok_cases (map : Config.OpcodeMap) (bytes : List Byte) (i : Instr) (rest : List Byte)
    (h : decodeWith map bytes = .ok (i, rest)) :
    ∃ m b1 b2 b3, i = instrOf m b1 b2 b3 ∧ bytes = map.code m :: operandBytes m b1 b2 b3 ++ rest := by
  cases bytes with
  | nil => cases h
  | cons op bs =>
    cases hd : dispatch map op with
    | none => simp [decodeWith, hd] at h
    | some mn =>
      obtain ⟨m, n⟩ := mn
      obtain ⟨hn, rfl⟩ := Machine.dispatch_some map op m n hd
      simp only [decodeWith, hd] at h
      split at h <;> cases h
      · exact ⟨m, 0, 0, 0, rfl, by simp [operandBytes, ← hn]⟩
      · exact ⟨m, _, 0, 0, rfl, by simp [operandBytes, ← hn]⟩
      · exact ⟨m, _, _, 0, rfl, by simp [operandBytes, ← hn]⟩
      · exact ⟨m, _, _, _, rfl, by simp [operandBytes, ← hn]⟩

/-- Settles O1: every instruction is its mnemonic with operand bytes; the encoder writes those after the opcode byte, the
dispatcher inverts the map, and the decoder reads them back. -/
theorem decodeOfEncodeIsTheInstruction : Obligations.DecodeOfEncodeIsTheInstruction := by
  intro map hmap i rest
  obtain ⟨b1, b2, b3, hi⟩ := exists_instrOf i
  rw [hi, encodeWith_instrOf]
  exact decodeWith_operandBytes map _ _ b1 b2 b3 rest (dispatch_code map hmap _)

/-- Settles O2: what decodes has the form the encoder writes. -/
theorem encodeOfDecodeIsTheBytes : Obligations.EncodeOfDecodeIsTheBytes := by
  intro map bytes i rest h
  obtain ⟨m, b1, b2, b3, rfl, rfl⟩ := decodeWith_ok_cases map bytes i rest h
  rw [encodeWith_instrOf]

/-- Settles O3: `find?` over all mnemonics meets the one with the opcode, and no other, since the map is injective. -/
theorem dispatcherInvertsTheOpcodeMap : Obligations.DispatcherInvertsTheOpcodeMap := by
  intro map hmap op
  refine ⟨?_, dispatch_none map op⟩
  rintro m rfl
  exact dispatch_code map hmap m

end Sys2Proof

namespace Sys2Proof.Machine

open Sys2Proof.Spec

/-! ### The assembler on statements without labels (30_encoding.md R121) -/

theorem labelTable_map_asmOf (is : List Instr) : ∀ at0, labelTable at0 (is.map asmOf) = [] := by
  induction is with
  | nil => intro _; rfl
  | cons i is ih =>
    intro at0
    have hlabel : (asmOf i).label = none := by cases i <;> rfl
    rw [List.map_cons, labelTable, hlabel]
    exact ih _

/-- A byte operand written as a number. -/
@[simp] theorem asmOperandBytes_byte (table : List (List Char × Nat)) (b : Byte) :
    asmOperandBytes table .byte (.number b.toNat) = some [b] := by
  rw [asmOperandBytes, if_pos b.isLt, BitVec.ofNat_toNat, BitVec.setWidth_eq]

/-- An address operand written as a number. -/
@[simp] theorem asmOperandBytes_address (table : List (List Char × Nat)) (t : Addr) :
    asmOperandBytes table .address (.number t.toNat) = some [addrHi t, addrLo t] := by
  simp only [asmOperandBytes, asmValue]
  rw [if_pos t.isLt, BitVec.ofNat_toNat, BitVec.setWidth_eq]

theorem asmOf_mnemonic (i : Instr) : (asmOf i).mnemonic = i.mnemonic := by cases i <;> rfl

/-- The operands of an instruction's statement are the bytes after the opcode byte. -/
theorem asmOperandsBytes_asmOf (map : Config.OpcodeMap) (table : List (List Char × Nat)) (i : Instr) :
    ∃ bs, asmOperandsBytes table (asmKinds i.mnemonic) (asmOf i).operands = some bs ∧
      encodeWith map i = map.code i.mnemonic :: bs := by
  cases i <;> simp [asmOf, asmKinds, Instr.mnemonic, asmOperandsBytes, encodeWith, Config.OpcodeMap.code]

theorem asmBytes_map_asmOf (map : Config.OpcodeMap) (table : List (List Char × Nat)) (is : List Instr) :
    asmBytes map table (is.map asmOf) = some (is.flatMap (encodeWith map)) := by
  induction is with
  | nil => rfl
  | cons i is ih =>
    obtain ⟨bs, hbs, henc⟩ := asmOperandsBytes_asmOf map table i
    simp only [List.map_cons, asmBytes, asmOf_mnemonic, hbs, ih, List.flatMap_cons, henc]

/-- Settles O5: the statements carry no label, so the label table is empty and each is assembled on its own. -/
theorem assembledStatementsAreEncodings : Obligations.AssembledStatementsAreEncodings := by
  intro map is
  rw [assembleWith, labelTable_map_asmOf, if_pos (by simp), asmBytes_map_asmOf]

end Sys2Proof.Machine
end

section
/-! SUPPORT. Everything a step of the loop can do under legal parameters (40_execute_loop.md R139), said once over the words
of the spec. Then the rules about single steps: O4, O6 to O12, O32, O33. -/

namespace Sys2Proof.Machine

open Sys2Proof.Spec

/-- The state the fetch of an instruction leaves: `pc` past its bytes, and the latches. -/
def fetched (s : State) (i : Instr) (ir : InstrReg) : State :=
  { s with pc := s.pc + BitVec.ofNat 17 (1 + operandCount i.mnemonic), ir := ir }

/-- The fault action of the model is that of the spec's words. -/
theorem raiseFault_eq_faulted (s : State) (sub : Subcause) (ipc : Pc) (value : Nat) :
    s.raiseFault sub ipc value = faulted s sub ipc value := rfl

/-- A handler's fault is the fault action at the address of the opcode byte. -/
theorem trap_eq_faulted (m : Mnemonic) (sub : Subcause) (value : Nat) (s : State) (ipc : Pc)
    (h : s.pc = ipc + BitVec.ofNat 17 (instrLength m)) : trap m sub value s = .next (faulted s sub ipc value) := by
  rw [trap_eq, handlerIpc_of_pc s m ipc h, raiseFault_eq_faulted]

/-- A fault ends the loop. -/
theorem endIteration_faulted (s : State) (sub : Subcause) (ipc : Pc) (value : Nat) :
    (faulted s sub ipc value).endIteration = returned (faulted s sub ipc value) := rfl

/-- After the handler, the loop's test of `running`, in the words of the spec. -/
theorem endIteration_eq_ite (s : State) : s.endIteration = if s.running = true then s else returned s := rfl

/-- What a step of the loop can do: a fault of the fetch, a fault of the handler, HALT, or another handler's effect. -/
inductive LoopStep (s : State) : State → Prop where
  | fetchFault (sub : Subcause) (value : Nat) (pc : Pc) (ir : InstrReg) (hnone : ∀ i, ¬ At s i)
      (hfault : FetchFault s sub pc) :
      LoopStep s (returned (faulted { s with pc := pc, ir := ir } sub s.pc value))
  | handlerFault (i : Instr) (ir : InstrReg) (sub : Subcause) (value : Nat) (hat : At s i)
      (htrap : Trapped (fetched s i ir) i sub value) :
      LoopStep s (returned (faulted (fetched s i ir) sub s.pc value))
  | halt (ir : InstrReg) (hat : At s .halt) : LoopStep s (returned (fetched s .halt ir).clearRunning)
  | effect (i : Instr) (ir : InstrReg) (t : State) (hat : At s i) (hne : i ≠ .halt)
      (heff : Effect (fetched s i ir) i t) : LoopStep s t

/-- No handler but HALT's clears `running` without a fault. -/
theorem Effect.running_eq {s : State} {i : Instr} {t : State} (h : Effect s i t) (hne : i ≠ .halt) :
    t.running = s.running := by
  cases h with
  | halt => exact absurd rfl hne
  | _ => rfl

/-- No handler but PRINT's emits without a fault, and PRINT emits one event. -/
theorem Effect.out_cases {s : State} {i : Instr} {t : State} (h : Effect s i t) :
    t.out = s.out ∨ ∃ e, t.out = s.out ++ [e] := by
  cases h with
  | print reg => exact .inr ⟨_, rfl⟩
  | _ => exact .inl rfl

/-- No handler records a fault but by the fault action. -/
theorem Effect.fault_eq {s : State} {i : Instr} {t : State} (h : Effect s i t) : t.fault = s.fault := by
  cases h <;> rfl

/-- A handler leaves the sequencer alone. -/
theorem Effect.seq_eq {s : State} {i : Instr} {t : State} (h : Effect s i t) : t.seq = s.seq := by
  cases h <;> rfl

/-- A handler leaves the parameters alone. -/
theorem Effect.params_eq {s : State} {i : Instr} {t : State} (h : Effect s i t) : t.params = s.params := by
  cases h <;> rfl

/-- Under legal parameters every step of the loop is one of the four. -/
theorem loopStep_of_step {s t : State} (hs : Stepping s) (h : step s = .next t) : LoopStep s t := by
  obtain ⟨hwf, hseq, hrun⟩ := hs
  obtain ⟨-, hm, -⟩ := params_limits s.params hwf
  rw [step_fetchOp s hseq] at h
  rcases iteration_cases s t hm hrun h with ⟨hn, sub, value, pc, ir, hf, rfl⟩ | ⟨i, rest, ir, u, hd, -, -, hu, rfl⟩
  · rw [raiseFault_eq_faulted, endIteration_faulted]
    exact .fetchFault sub value pc ir (fun i ⟨rest, hd⟩ => hn i rest hd) hf
  · have hat : At s i := ⟨rest, hd⟩
    change exec i (fetched s i ir) = .next u at hu
    rcases exec_inversion i (fetched s i ir) with ⟨v, hv, heff⟩ | ⟨sub, value, hv, htrap⟩ <;> rw [hv] at hu
    · cases hu
      by_cases hne : i = .halt
      · subst hne
        rw [exec_halt] at hv
        cases hv
        exact .halt ir hat
      · rw [endIteration_running u ((heff.running_eq hne).trans hrun)]
        exact .effect i ir u hat hne heff
    · rw [trap_eq_faulted _ _ _ (fetched s i ir) s.pc rfl] at hu
      cases hu
      exact .handlerFault i ir sub value hat htrap

/-- The bytes at `pc` decode to one instruction at most. -/
theorem at_unique {s : State} {i j : Instr} (hi : At s i) (hj : At s j) : i = j := by
  obtain ⟨_, hi⟩ := hi
  obtain ⟨_, hj⟩ := hj
  rw [hi] at hj
  cases hj
  rfl

/-- A step that goes on has run an instruction other than HALT. -/
theorem LoopStep.cases_running {s t : State} (h : LoopStep s t) (hs : Stepping s) :
    (Stepping t ∧ ∃ i ir, At s i ∧ i ≠ .halt ∧ Effect (fetched s i ir) i t) ∨
      t.running = false ∧ t.seq = .idle ∧
        ((AtHalt s ∧ ∃ ir, t = returned (fetched s .halt ir).clearRunning) ∨
          ¬ AtHalt s ∧ ∃ pc ir sub value, t = returned (faulted { s with pc := pc, ir := ir } sub s.pc value)) := by
  obtain ⟨hwf, hseq, hrun⟩ := hs
  cases h with
  | fetchFault sub value pc ir hnone => exact .inr ⟨rfl, rfl, .inr ⟨hnone _, pc, ir, sub, value, rfl⟩⟩
  | handlerFault i ir sub value hat htrap =>
    refine .inr ⟨rfl, rfl, .inr ⟨fun hhalt => ?_, _, ir, sub, value, rfl⟩⟩
    obtain rfl := at_unique hat hhalt
    cases htrap with
    | index _ _ _ hh => exact hh rfl
  | halt ir hat => exact .inr ⟨rfl, rfl, .inl ⟨hat, ir, rfl⟩⟩
  | effect i ir t hat hne heff =>
    refine .inl ⟨⟨?_, heff.seq_eq.trans hseq, (heff.running_eq hne).trans hrun⟩, i, ir, hat, hne, heff⟩
    rw [heff.params_eq]
    exact hwf

/-! ### Steps in terms of the fetch -/

/-- A step whose fetch faults takes that fault and returns. -/
theorem step_of_fetch_faulted (s t : State) (sub : Subcause) (value : Nat) (hs : Stepping s)
    (h : fetchDecode s = .error (t.raiseFault sub s.pc value)) : step s = .next (returned (faulted t sub s.pc value)) := by
  obtain ⟨-, hseq, hrun⟩ := hs
  rw [step_fetchOp s hseq, iteration, if_pos hrun, h]
  rfl

/-- Every step answers a next state. -/
theorem exists_step_next (s : State) : ∃ t, step s = .next t := by
  cases hseq : s.seq with
  | idle =>
    cases hc : s.commands with
    | nil => exact ⟨s, step_idle_nil s hseq hc⟩
    | cons c rest => exact ⟨_, step_idle_cons s c rest hseq hc⟩
  | fetchOp =>
    rw [step_fetchOp s hseq]
    cases hrun : s.running with
    | false => exact ⟨_, iteration_stopped s hrun⟩
    | true =>
      rw [iteration, if_pos hrun]
      cases hf : fetchDecode s with
      | error t => exact ⟨_, rfl⟩
      | ok it =>
        obtain ⟨t, ht⟩ := exec_next it.1 it.2
        exact ⟨t.endIteration, by simp only [ht, afterHandler]⟩

/-- JMP to an address past the memory image takes JUMP_ADDRESS (42_control_flow.md R201). -/
theorem exec_jmp_faulted (t : Addr) (s : State) (ipc : Pc) (hpc : s.pc = ipc + 3) (ht : s.params.memorySize ≤ t.toNat) :
    exec (.jmp t) s = .next (faulted s .jumpAddress ipc t.toNat) := by
  simp only [exec, execJmp, checkAddr_trap .jmp t s _ ht]
  exact trap_eq_faulted .jmp _ _ s ipc hpc

/-- Settles O4: the decoder evaluates on each row, and 300 is past a memory image of 256 bytes. -/
theorem workedEncodingsDecode : Obligations.WorkedEncodingsDecode := by
  refine ⟨rfl, rfl, rfl, rfl, rfl, rfl, rfl, rfl, rfl, fun s ipc hsize hpc => ?_⟩
  exact exec_jmp_faulted 300 s ipc hpc (by rw [hsize]; decide)

/-- Settles O6: the step is the handler in the state the fetch leaves, and then the loop's test. -/
theorem stepRunsTheDecodedInstruction : Obligations.StepRunsTheDecodedInstruction := by
  intro s i rest hs hd
  obtain ⟨ir, hlatched, hstep⟩ := step_of_decode s i rest hs hd
  refine ⟨ir, hlatched.op, hlatched.b1, hlatched.b2, hlatched.b3, hstep.trans ?_⟩
  obtain ⟨t, ht⟩ := exec_next i { s with pc := s.pc + BitVec.ofNat 17 (1 + operandCount i.mnemonic), ir := ir }
  rw [ht, afterHandler, endIteration_eq_ite]

/-- Settles O7: the fetch bound fails before anything is read. -/
theorem opcodeFetchPastTheEndFaults : Obligations.OpcodeFetchPastTheEndFaults := by
  intro s hs hpc
  have hnot : ¬ s.pcInMemory = true := by simpa [State.pcInMemory] using hpc
  exact step_of_fetch_faulted s s .fetchOpcode _ hs (if_neg hnot)

/-- The default map assigns the bytes below 0x0B (30_encoding.md R102). -/
theorem opcodeMap_unassigned (op : Byte) : (∀ m, opcodeMap.code m ≠ op) ↔ 0x0B ≤ op.toNat := by
  constructor
  · intro h
    by_contra hlt
    have hall : ∀ k : Fin 11, ∃ m, opcodeMap.code m = BitVec.ofNat 8 k := by
      intro k
      exact ⟨Mnemonic.all[k]'k.isLt, by revert k; decide⟩
    obtain ⟨m, hm⟩ := hall ⟨op.toNat, by omega⟩
    exact h m (by rw [hm, BitVec.ofNat_toNat, BitVec.setWidth_eq])
  · rintro h m rfl
    revert h
    cases m <;> decide

/-- Settles O8: the dispatcher gives none for a byte that is no opcode, so the fetch stops after the opcode byte. -/
theorem unassignedOpcodeFaults : Obligations.UnassignedOpcodeFaults := by
  refine ⟨opcodeMap_unassigned, fun s hs hpc hop => ?_⟩
  have hin : s.pcInMemory = true := decide_eq_true hpc
  have hd : dispatch s.params.opcodeMap s.byteAtPc = none := dispatch_none _ _ hop
  refine step_of_fetch_faulted s { s with pc := s.pc + 1, ir := { s.ir with op := s.byteAtPc } } .illegalOpcode _ hs ?_
  simp only [fetchDecode, hin, if_true, hd]
  rfl

/-- Settles O9: the dispatcher knows the opcode byte, so of the cases of the fetch only FETCH_OPERAND is left. -/
theorem operandFetchPastTheEndFaults : Obligations.OperandFetchPastTheEndFaults := by
  intro s m hs hpc hcode hshort
  obtain ⟨hwf, -, -⟩ := id hs
  obtain ⟨-, hm, -, -, hmap, -⟩ := params_limits s.params hwf
  have hd : dispatch s.params.opcodeMap s.byteAtPc = some (m, operandCount m) := by
    rw [State.byteAtPc, ← hcode]
    exact dispatch_code _ hmap m
  rcases fetchDecode_cases s hm with
    ⟨hpast, -⟩ | ⟨-, hnone, -⟩ | ⟨m', ir, -, -, -, -, hf⟩ | ⟨m', ir, -, hd', hfits, -, -⟩
  · omega
  · rw [hd] at hnone
    cases hnone
  · refine ⟨_, ir, ?_, step_of_fetch_faulted s _ .fetchOperand _ hs hf⟩
    rw [BitVec.toNat_ofNat]
    omega
  · rw [hd] at hd'
    cases hd'
    unfold instrLength at hfits
    omega

/-- Settles O10, by the two states of the sequencer: neither the host's move nor an iteration is ever refused. -/
theorem everyStepAnswersANextState : Obligations.EveryStepAnswersANextState := exists_step_next

/-- Settles O11, by the cases of a step of the loop. -/
theorem stepContinuesHaltsOrFaults : Obligations.StepContinuesHaltsOrFaults := by
  intro s t hs hfault h
  rcases (loopStep_of_step hs h).cases_running hs with
    ⟨ht, i, ir, hat, hne, heff⟩ | ⟨hrun, hseq, ⟨hhalt, ir, rfl⟩ | ⟨hhalt, pc, ir, sub, value, rfl⟩⟩
  · exact .inl ⟨ht, heff.fault_eq.trans hfault, fun hhalt => hne (at_unique hat hhalt)⟩
  · exact .inr (.inl ⟨hrun, hseq, hfault, rfl, hhalt⟩)
  · exact .inr (.inr ⟨hrun, hseq, hhalt, _, rfl, rfl⟩)

/-- Settles O12: EXECUTE and the start of an iteration test `running`, and so does the end of every step of the loop. -/
theorem executeLoopsWhileRunning : Obligations.ExecuteLoopsWhileRunning := by
  refine ⟨fun s rest hseq hc hrun => ?_, fun s rest hseq hc hrun => ?_, fun s hseq hrun => ?_, fun s t hs h => ?_⟩
  · rw [step_idle_cons s _ rest hseq hc]
    simp only [perform, hostExecute, hrun, Bool.false_eq_true, if_false]
    rfl
  · rw [step_idle_cons s _ rest hseq hc]
    simp only [perform, hostExecute, hrun, if_true]
  · rw [step_fetchOp s hseq, iteration_stopped s hrun, endIteration_stopped s hrun]
    rfl
  · rcases (loopStep_of_step hs h).cases_running hs with ⟨⟨-, hseq, hrun⟩, -⟩ | ⟨hrun, hseq, -⟩
    · simp [hseq, hrun]
    · simp [hseq, hrun]

/-- Settles O32: a step that stops other than by HALT is the fault action on a state that differs in `pc` and the latches. -/
theorem faultsArePrecise : Obligations.FaultsArePrecise := by
  intro s t hs hhalt h hstop
  rcases (loopStep_of_step hs h).cases_running hs with
    ⟨⟨-, -, hrun⟩, -⟩ | ⟨-, -, ⟨hhalt', -⟩ | ⟨-, pc, ir, sub, value, rfl⟩⟩
  · rw [hstop] at hrun
    cases hrun
  · exact absurd hhalt' hhalt
  · exact ⟨rfl, rfl, rfl, rfl, rfl, _, rfl, rfl, rfl⟩

/-- Settles O33: a fetch fault leaves `pc` where `FetchFault` says, and a handler's fault past the instruction. -/
theorem pcAfterAFault : Obligations.PcAfterAFault := by
  intro s t r hs hhalt h hstop hr
  obtain ⟨hwf, -, hrun⟩ := id hs
  obtain ⟨-, hm, -⟩ := params_limits s.params hwf
  cases loopStep_of_step hs h with
  | fetchFault sub value pc ir hnone hfault =>
    cases hr
    rcases hfault.cases with ⟨rfl, rfl, hpast⟩ | ⟨rfl, rfl, -⟩ | ⟨rfl, rfl, -⟩
    · exact ⟨rfl, hpast⟩
    · rfl
    · show (BitVec.ofNat 17 s.params.memorySize).toNat = s.params.memorySize
      rw [BitVec.toNat_ofNat]
      omega
  | handlerFault i ir sub value hat htrap =>
    cases hr
    cases htrap <;> exact ⟨_, hat, rfl⟩
  | halt ir hat => exact absurd hat hhalt
  | effect i ir t hat hne heff =>
    have hgoes : t.running = true := (heff.running_eq hne).trans hrun
    rw [hstop] at hgoes
    cases hgoes

end Sys2Proof.Machine
end

section
/-! SUPPORT. The invariant of the machine, one lemma for each way the state changes. Between the fetch and the loop's test a
handler may clear `running` while the sequencer is still in FETCH_OP, so the lemmas about that part speak of the state with
the sequencer put to IDLE, and the loop's test brings the invariant back. Then O45 and O46. -/

namespace Sys2Proof.Safety

open Sys2Proof.Machine Sys2Proof.Spec

/-- The state with the sequencer in IDLE. -/
def atRest (s : State) : State := { s with seq := .idle }

/-- The invariant does not need the sequencer in FETCH_OP. -/
theorem Inv.put_atRest {s : State} (h : Inv s) : Inv (atRest s) :=
  { h with fetch_running := nofun }

/-- The loop's test brings the invariant back: FETCH_OP is kept only while `running`. -/
theorem Inv.after_loopTest {t : State} (h : Inv (atRest t)) : Inv t.endIteration := by
  cases hrun : t.running with
  | true =>
    rw [endIteration_running t hrun]
    exact { h with fetch_running := fun _ => hrun }
  | false =>
    rw [endIteration_stopped t hrun]
    exact { h with }

/-- The fetch keeps the invariant where it leaves `pc` at most at MEMORY_SIZE. -/
theorem Inv.after_fetch {s : State} (h : Inv s) (pc : Pc) (ir : InstrReg) (hpc : pc.toNat ≤ s.params.memorySize) :
    Inv (atRest { s with pc := pc, ir := ir }) :=
  { h with pc_le := hpc, fetch_running := nofun }

/-- An event more on the channel keeps the record's event there. -/
theorem Inv.fault_emitted_append {s : State} (h : Inv s) (e : Event) (r : FaultRecord) (hr : s.fault = some r) :
    Event.fault r ∈ s.out ++ [e] :=
  List.mem_append_left _ (h.fault_emitted r hr)

/-- The fault action emits what it records. -/
theorem Inv.after_fault {s : State} (h : Inv (atRest s)) (sub : Subcause) (ipc : Pc) (value : Nat) :
    Inv (atRest (faulted s sub ipc value)) :=
  { h with
    fetch_running := nofun
    fault_emitted := by
      rintro r ⟨⟩
      exact List.mem_append_right _ (List.mem_singleton.mpr rfl) }

/-- A register write keeps the invariant. -/
theorem Inv.after_setX {s : State} (h : Inv s) (r v : Byte) : Inv (s.setX r v) :=
  { h with regs_length := (State.length_setX s r v).trans h.regs_length }

/-- A stack write above `S[0]` and below MEMORY_SIZE keeps the invariant, with `sp` one less. -/
theorem Inv.after_push {s : State} (h : Inv s) (v : Byte) (hsp : s.sp ≠ 0) :
    Inv { s with stack := s.stack.write s.sp.toNat v, sp := s.sp - 1 } := by
  have hpos : s.sp.toNat ≠ 0 := fun h0 => hsp (BitVec.eq_of_toNat_eq h0)
  have hlt := h.sp_lt
  exact { h with
    stack_wf := Memory.write_wf _ _ _ h.stack_wf
    stack_within := Memory.write_within _ _ _ _ h.stack_within hlt
    stack_zero := (Memory.read_write_other _ _ _ v h.stack_wf (Ne.symm hpos)).trans h.stack_zero
    sp_lt := by
      show (s.sp - 1).toNat < s.params.memorySize
      bv_omega }

/-- `sp` one more keeps the invariant below the empty position. -/
theorem Inv.after_popIncrement {s : State} (h : Inv s) (hsp : s.sp.toNat < s.params.memorySize - 1) :
    Inv { s with sp := s.sp + 1 } :=
  { h with
    sp_lt := by
      show (s.sp + 1).toNat < s.params.memorySize
      bv_omega }

/-- Every handler that does not fault keeps the invariant. -/
theorem Inv.after_effect {s : State} {i : Instr} {t : State} (h : Inv (atRest s)) (heff : Effect s i t) :
    Inv (atRest t) := by
  cases heff with
  | halt => exact { h with fetch_running := nofun }
  | load reg value => exact h.after_setX reg value
  | arith op i a b d y => exact h.after_setX d y
  | print reg => exact { h with fault_emitted := h.fault_emitted_append _ }
  | jmp t ht => exact { h with pc_le := (State.pcLoad_toNat s t).trans_le ht.le }
  | jzTaken reg t _ ht => exact { h with pc_le := (State.pcLoad_toNat s t).trans_le ht.le }
  | jzNotTaken => exact h
  | push reg _ hsp => exact h.after_push (s.x reg) hsp
  | pop reg _ hsp => exact (Inv.after_popIncrement h hsp).after_setX reg _

/-- An iteration of the loop keeps the invariant. -/
theorem Inv.after_iteration {s t : State} (h : Inv s) (ht : iteration s = .next t) : Inv t := by
  obtain ⟨-, hm, -⟩ := params_limits s.params h.params_wf
  cases hrun : s.running with
  | false =>
    rw [iteration_stopped s hrun] at ht
    cases ht
    exact h.put_atRest.after_loopTest
  | true =>
    rcases iteration_cases s t hm hrun ht with
      ⟨-, sub, value, pc, ir, hf, rfl⟩ | ⟨i, rest, ir, u, -, hfits, -, hu, rfl⟩
    · refine ((h.after_fetch pc ir ?_).after_fault sub s.pc value).after_loopTest
      rcases hf.cases with ⟨-, rfl, -⟩ | ⟨-, rfl, hpc⟩ | ⟨-, rfl, -⟩
      · exact h.pc_le
      · rw [pcIncrement_toNat s hm hpc]
        exact hpc
      · rw [BitVec.toNat_ofNat]
        exact Nat.mod_le _ _
    · have hfetched : Inv (atRest (fetched s i ir)) := by
        refine h.after_fetch _ ir ?_
        rw [BitVec.toNat_add, BitVec.toNat_ofNat]
        omega
      apply Inv.after_loopTest
      rcases exec_inversion i (fetched s i ir) with ⟨v, hv, heff⟩ | ⟨sub, value, hv, -⟩ <;>
        rw [fetched, hu] at hv <;> cases hv
      · exact hfetched.after_effect heff
      · exact hfetched.after_fault sub _ value

/-! ### The host's side -/

/-- The state after power-on, INIT or RESET meets the invariant, `sp` being inside the stack. -/
theorem inv_zeroed {s : State} (hwf : s.params.wf = true) (hseq : s.seq = .idle) (sp : Sp)
    (hsp : sp.toNat < s.params.memorySize) : Inv (s.zeroed sp) where
  params_wf := hwf
  mem_wf := Memory.nil_wf
  mem_within := Memory.nil_within _
  stack_wf := Memory.nil_wf
  stack_within := Memory.nil_within _
  stack_zero := rfl
  regs_length := List.length_replicate
  pc_le := Nat.zero_le _
  sp_lt := hsp
  fetch_running hf := by
    rw [State.zeroed_seq, hseq] at hf
    cases hf
  fault_emitted := nofun

/-- Both legal values of SP_AFTER_RESET lie inside the stack (00_scope.md R7). -/
theorem spAfterReset_lt (p : Config.Params) (h : p.wf = true) :
    (BitVec.ofNat 16 p.spAfterReset).toNat < p.memorySize := by
  obtain ⟨hmin, -, -, -, -, hsp⟩ := params_limits p h
  rw [spAfterReset_toNat p h]
  omega

/-- The empty position of `sp` lies inside the stack. -/
theorem emptySp_lt (p : Config.Params) (h : p.wf = true) : p.emptySp.toNat < p.memorySize := by
  obtain ⟨hmin, -⟩ := params_limits p h
  rw [emptySp_toNat p h]
  omega

/-- A program that fits keeps the memory image in canonical form and inside its bounds. -/
theorem Inv.after_load {s : State} (h : Inv s) (p : List Byte) (hp : p.length ≤ s.params.memorySize) :
    Inv { s with mem := s.mem.writeBytes 0 p, running := true } :=
  { h with
    mem_wf := Memory.writeBytes_wf p _ _ h.mem_wf
    mem_within := Memory.writeBytes_within p _ _ _ h.mem_within ((Nat.zero_add _).trans_le hp)
    fetch_running := fun _ => rfl }

/-- A host command on an idle block keeps the invariant. -/
theorem Inv.after_perform {s : State} (h : Inv s) (hseq : s.seq = .idle) (c : HostCommand) : Inv (perform c s) := by
  cases c with
  | init => exact inv_zeroed h.params_wf hseq _ (emptySp_lt _ h.params_wf)
  | reset => exact inv_zeroed h.params_wf hseq _ (spAfterReset_lt _ h.params_wf)
  | load p =>
    change Inv (hostLoad p s)
    by_cases hp : p.length ≤ s.params.memorySize
    · rw [hostLoad_ok p s hp]
      exact { h.after_load p hp with }
    · rw [hostLoad_refused p s (by omega)]
      exact { h with fault_emitted := h.fault_emitted_append _ }
  | execute =>
    change Inv (hostExecute s)
    unfold hostExecute
    split
    · exact { h with fetch_running := fun _ => by assumption }
    · exact { h with }

/-- A block with legal parameters meets the invariant right after power-on. -/
theorem inv_fresh (p : Config.Params) (h : p.wf = true) : Inv (State.fresh p) where
  params_wf := h
  mem_wf := Memory.nil_wf
  mem_within := Memory.nil_within _
  stack_wf := Memory.nil_wf
  stack_within := Memory.nil_within _
  stack_zero := rfl
  regs_length := List.length_replicate
  pc_le := Nat.zero_le _
  sp_lt := emptySp_lt p h
  fetch_running := nofun
  fault_emitted := nofun

end Sys2Proof.Safety

namespace Sys2Proof.Machine

open Sys2Proof.Safety

/-- Only legal parameters are built, and what is built is the block right after power-on. -/
theorem build_next {p : Config.Params} {s : State} (h : build p = .next s) : p.wf = true ∧ s = State.fresh p := by
  cases hwf : p.wf with
  | false =>
    rw [build_refused p hwf] at h
    cases h
  | true =>
    rw [build_legal p hwf] at h
    cases h
    exact ⟨rfl, rfl⟩

/-- Settles O46: a step in FETCH_OP is an iteration of the loop; a step in IDLE performs a host command, or none. -/
theorem everyStepKeepsTheInvariant : Obligations.EveryStepKeepsTheInvariant := by
  intro s t h ht
  cases hseq : s.seq with
  | fetchOp => exact h.after_iteration ((step_fetchOp s hseq).symm.trans ht)
  | idle =>
    rcases step_idle_cases s t hseq ht with ⟨-, rfl⟩ | ⟨c, rest, -, rfl⟩
    · exact h
    · have hrest : Inv { s with commands := rest } := { h with }
      exact hrest.after_perform hseq c

/-- Settles O45: the default parameters are legal, and so are those of whatever is built. -/
theorem resetMeetsTheInvariant : Obligations.ResetMeetsTheInvariant := by
  refine ⟨inv_fresh defaultParams (by decide), fun p s h => ?_⟩
  obtain ⟨hwf, rfl⟩ := build_next h
  exact inv_fresh p hwf

end Sys2Proof.Machine
end

section
/-! SUPPORT. The handlers one by one (41_load_arith_print.md, 42_control_flow.md, 43_stack.md), from what their shared checks
and the alu_unit do. Then O14 to O24, and O35. -/

namespace Sys2Proof.Machine

open Sys2Proof.Spec

section
variable {m : Mnemonic} {s : State} {ipc : Pc}

/-- A register operand that names no register takes REGISTER_INDEX at the opcode byte (41_load_arith_print.md R160). -/
theorem checkReg_faulted (i : Byte) (k : Result) (hpc : s.pc = ipc + BitVec.ofNat 17 (instrLength m))
    (h : ¬ IsRegister s i) : checkReg m i s k = .next (faulted s .registerIndex ipc i.toNat) :=
  (checkReg_trap m i s k (Nat.le_of_not_lt h)).trans (trap_eq_faulted m _ _ s ipc hpc)

/-- An address operand past the memory image takes JUMP_ADDRESS at the opcode byte (42_control_flow.md R200). -/
theorem checkAddr_faulted (t : Addr) (k : Result) (hpc : s.pc = ipc + BitVec.ofNat 17 (instrLength m))
    (h : s.params.memorySize ≤ t.toNat) : checkAddr m t s k = .next (faulted s .jumpAddress ipc t.toNat) :=
  (checkAddr_trap m t s k h).trans (trap_eq_faulted m _ _ s ipc hpc)

/-- The index faults of a three-register handler, in the order of its checks. -/
theorem arith_indexFaults (i : Instr) (m : Mnemonic) (op : AluOp) {a b d : Byte} (hi : exec i s = arith m op a b d s)
    (hpc : s.pc = ipc + BitVec.ofNat 17 (instrLength m)) : IndexFaults i a b d ipc s := by
  unfold IndexFaults
  rw [hi, arith]
  refine ⟨fun ha => checkReg_faulted a _ hpc ha, fun ha hb => ?_, fun ha hb hd => ?_⟩
  · rw [checkReg_ok _ _ _ _ ha]
    exact checkReg_faulted b _ hpc hb
  · rw [checkReg_ok _ _ _ _ ha, checkReg_ok _ _ _ _ hb]
    exact checkReg_faulted d _ hpc hd

/-- A write of a register that exists is the write of exactly one register. -/
theorem registerWritten_setX {r : Byte} (v : Byte) (hlen : s.regs.length = s.params.numRegisters)
    (hr : IsRegister s r) : RegisterWritten r v s (s.setX r v) :=
  ⟨rfl, State.length_setX s r v, State.x_setX_same s r v (hlen ▸ hr), fun q hq => State.x_setX_other s r q v hq.symm⟩

/-- On valid indices, where the alu_unit gives a result, a three-register handler writes it to one register. -/
theorem arith_registerWritten {op : AluOp} {a b d y : Byte} (hlen : s.regs.length = s.params.numRegisters)
    (ha : IsRegister s a) (hb : IsRegister s b) (hd : IsRegister s d) (hy : alu op (s.x a) (s.x b) = some y) :
    ∃ t, arith m op a b d s = .next t ∧ RegisterWritten d y s t :=
  ⟨_, arith_write ha hb hd hy, registerWritten_setX y hlen hd⟩

end

/-! ### The results of the alu_unit as numbers (41_load_arith_print.md R162) -/

theorem alu_add_eq_ofNat (a b : Byte) : alu .add a b = some (BitVec.ofNat 8 ((a.toNat + b.toNat) % 256)) :=
  congrArg some (BitVec.eq_of_toNat_eq (by simp))

theorem alu_mul_eq_ofNat (a b : Byte) : alu .mul a b = some (BitVec.ofNat 8 ((a.toNat * b.toNat) % 256)) :=
  congrArg some (BitVec.eq_of_toNat_eq (by simp))

theorem alu_sub_eq_ofNat (a b : Byte) :
    alu .sub a b = some (if b.toNat ≤ a.toNat then BitVec.ofNat 8 (a.toNat - b.toNat)
      else BitVec.ofNat 8 (a.toNat + 256 - b.toNat)) := by
  have ha := a.isLt
  have hb := b.isLt
  refine congrArg some (BitVec.eq_of_toNat_eq ?_)
  split <;> rw [BitVec.toNat_sub, BitVec.toNat_ofNat] <;> omega

theorem alu_div_eq_ofNat (a b : Byte) (hb : b.toNat ≠ 0) :
    alu .div a b = some (BitVec.ofNat 8 (a.toNat / b.toNat)) := by
  have hne : b ≠ 0 := fun h => hb (by rw [h]; rfl)
  have hlt : a.toNat / b.toNat < 256 := (Nat.div_le_self _ _).trans_lt a.isLt
  refine (alu_div a b hne).trans (congrArg some (BitVec.eq_of_toNat_eq ?_))
  rw [BitVec.toNat_udiv, BitVec.toNat_ofNat, Nat.mod_eq_of_lt hlt]

/-- Settles O24: the word operations keep the exact result modulo 256, and only a divisor of 0 leaves none. -/
theorem aluKeepsExactResultsModulo256 : Obligations.AluKeepsExactResultsModulo256 := by
  intro a b
  refine ⟨⟨_, alu_add a b, BitVec.toNat_add a b⟩, ⟨_, alu_sub a b, ?_⟩, ⟨_, alu_mul a b, BitVec.toNat_mul a b⟩,
    fun hb => ?_, fun hb => ?_⟩
  · rw [BitVec.toNat_sub]
    omega
  · have hne : b ≠ 0 := fun h => hb (by rw [h]; rfl)
    exact ⟨_, alu_div a b hne, BitVec.toNat_udiv, by simpa [aluDz] using hne⟩
  · obtain rfl : b = 0 := BitVec.eq_of_toNat_eq hb
    exact ⟨alu_div_zero a, rfl⟩

/-! ### The instructions -/

/-- Settles O14, by the one index check. -/
theorem loadWritesTheImmediate : Obligations.LoadWritesTheImmediate := by
  refine ⟨fun _ _ _ => rfl, fun reg value s ipc hpc hlen => ⟨fun hr => ?_, checkReg_faulted reg _ hpc⟩⟩
  exact ⟨_, checkReg_ok .load reg s _ hr, registerWritten_setX value hlen hr⟩

/-- Settles O15, by the rules of the three-register handlers. -/
theorem addWritesTheSumModulo256 : Obligations.AddWritesTheSumModulo256 :=
  ⟨fun _ _ _ _ => rfl, fun _ _ _ _ _ hpc hlen =>
    ⟨fun ha hb hd => arith_registerWritten hlen ha hb hd (alu_add_eq_ofNat _ _),
      arith_indexFaults _ .add .add rfl hpc⟩⟩

/-- Settles O16, by the rules of the three-register handlers. -/
theorem subWritesTheDifferenceModulo256 : Obligations.SubWritesTheDifferenceModulo256 :=
  ⟨fun _ _ _ _ => rfl, fun _ _ _ _ _ hpc hlen =>
    ⟨fun ha hb hd => arith_registerWritten hlen ha hb hd (alu_sub_eq_ofNat _ _),
      arith_indexFaults _ .sub .sub rfl hpc⟩⟩

/-- Settles O17, by the rules of the three-register handlers. -/
theorem mulWritesTheProductModulo256 : Obligations.MulWritesTheProductModulo256 :=
  ⟨fun _ _ _ _ => rfl, fun _ _ _ _ _ hpc hlen =>
    ⟨fun ha hb hd => arith_registerWritten hlen ha hb hd (alu_mul_eq_ofNat _ _),
      arith_indexFaults _ .mul .mul rfl hpc⟩⟩

/-- Settles O18, by the rules of the three-register handlers; the alu_unit gives no result for a divisor of 0. -/
theorem divWritesTheQuotientOrFaults : Obligations.DivWritesTheQuotientOrFaults := by
  refine ⟨fun _ _ _ _ => rfl, fun a b d s ipc hpc hlen =>
    ⟨fun ha hb hd => ⟨fun h => ?_, fun h => ?_⟩, arith_indexFaults _ .div .div rfl hpc⟩⟩
  · exact arith_registerWritten hlen ha hb hd (alu_div_eq_ofNat _ _ h)
  · rw [exec_div_zero a b d s ha hb hd (BitVec.eq_of_toNat_eq h)]
    exact trap_eq_faulted .div _ _ s ipc hpc

/-- Settles O19, by the one index check. -/
theorem printEmitsTheRegister : Obligations.PrintEmitsTheRegister :=
  ⟨fun _ _ => rfl, fun reg s _ hpc => ⟨checkReg_ok .print reg s _, checkReg_faulted reg _ hpc⟩⟩

/-- A taken jump loads `pc` with the address as a number. -/
theorem pcLoad_eq (s : State) (t : Addr) : s.pcLoad t = { s with pc := BitVec.ofNat 17 t.toNat } := by
  rw [BitVec.ofNat_toNat]
  rfl

/-- Settles O20, by the one address check; the two bytes of an address are determined by it. -/
theorem jmpLoadsTheTarget : Obligations.JmpLoadsTheTarget := by
  intro hi lo t ht
  obtain ⟨hhi, hlo⟩ := addrBytes_of_toNat hi lo t ht
  refine ⟨fun map => ?_, fun s ipc hpc => ⟨fun hin => ?_, exec_jmp_faulted t s ipc hpc⟩⟩
  · rw [encodeWith, hhi, hlo]
  · rw [← pcLoad_eq]
    exact checkAddr_ok .jmp t s _ hin

/-- JZ on valid operands: the branch is taken exactly when the register is zero (42_control_flow.md R205, R206). -/
theorem exec_jz_ok (reg : Byte) (t : Addr) (s : State) (hr : IsRegister s reg) (ht : t.toNat < s.params.memorySize) :
    exec (.jz reg t) s = .next (if s.x reg = 0 then s.pcLoad t else s) := by
  simp only [exec, execJz, checkReg_ok .jz reg s _ hr, checkAddr_ok .jz t s _ ht, isZero_iff]

/-- Settles O21, by the two checks in their order, and then the zero test. -/
theorem jzBranchesOnZero : Obligations.JzBranchesOnZero := by
  intro hi lo t ht
  obtain ⟨hhi, hlo⟩ := addrBytes_of_toNat hi lo t ht
  refine ⟨fun map reg => ?_, fun reg s ipc hpc => ⟨checkReg_faulted reg _ hpc, fun hr hout => ?_, fun hr hin => ?_⟩⟩
  · rw [encodeWith, hhi, hlo]
  · simp only [exec, execJz, checkReg_ok .jz reg s _ hr]
    exact checkAddr_faulted t _ hpc hout
  · rw [exec_jz_ok reg t s hr hin]
    refine ⟨fun h0 => ?_, fun h0 => ?_⟩
    · rw [if_pos (BitVec.eq_of_toNat_eq h0), pcLoad_eq]
    · rw [if_neg fun h => h0 (by rw [h]; rfl)]

/-- PUSH of a register with room on the stack (43_stack.md R231). -/
theorem exec_push_ok (reg : Byte) (s : State) (hr : IsRegister s reg) (hsp : s.sp.toNat ≠ 0) :
    exec (.push reg) s = .next { s with stack := s.stack.write s.sp.toNat (s.x reg), sp := s.sp - 1 } := by
  have hne : s.sp ≠ 0 := fun h => hsp (by rw [h]; rfl)
  simp only [exec, execPush, checkReg_ok .push reg s _ hr, stackPush_room s _ hne]

/-- POP to a register with a byte on the stack (43_stack.md R232). -/
theorem exec_pop_ok (reg : Byte) (s : State) (hr : IsRegister s reg) (hsp : s.sp.toNat < s.params.memorySize - 1) :
    exec (.pop reg) s = .next (({ s with sp := s.sp + 1 } : State).setX reg (s.stackAt (s.sp + 1).toNat)) := by
  simp only [exec, execPop, checkReg_ok .pop reg s _ hr, stackPop_some s hsp, State.stackAt]

/-- PUSH at `sp = 0` takes STACK_UNDERFLOW at the opcode byte with the value 0. -/
theorem exec_push_faulted (reg : Byte) (s : State) (ipc : Pc) (hpc : s.pc = ipc + 2) (hr : IsRegister s reg)
    (hsp : s.sp.toNat = 0) : exec (.push reg) s = .next (faulted s .stackUnderflow ipc 0) := by
  rw [exec_push_underflow reg s hr (BitVec.eq_of_toNat_eq hsp), hsp]
  exact trap_eq_faulted .push _ _ s ipc hpc

/-- Settles O22, by the index check, and then the stack_engine's indication. -/
theorem pushWritesThenDecrements : Obligations.PushWritesThenDecrements := by
  refine ⟨fun _ _ => rfl, fun reg s ipc hpc hwf =>
    ⟨checkReg_faulted reg _ hpc, exec_push_faulted reg s ipc hpc, fun hr hsp => ?_⟩⟩
  refine ⟨_, exec_push_ok reg s hr hsp, rfl, ?_, Memory.read_write_same _ _ _ hwf,
    fun i hi => Memory.read_write_other _ _ _ _ hwf hi⟩
  show (s.sp - 1).toNat + 1 = s.sp.toNat
  bv_omega

/-- Settles O23, by the index check, and then the stack_engine's indication; below MEMORY_SIZE `sp + 1` does not wrap. -/
theorem popIncrementsThenReads : Obligations.PopIncrementsThenReads := by
  refine ⟨fun _ _ => rfl, fun reg s ipc hpc hwf hlen =>
    ⟨checkReg_faulted reg _ hpc, fun hr hsp => ?_, fun hr hsp => ?_⟩⟩
  · rw [exec_pop_overflow reg s hr hsp]
    exact trap_eq_faulted .pop _ _ s ipc hpc
  · obtain ⟨-, hm, -⟩ := params_limits s.params hwf
    have hinc : (s.sp + 1).toNat = s.sp.toNat + 1 := by bv_omega
    refine ⟨_, exec_pop_ok reg s hr hsp, hinc, ?_⟩
    rw [hinc]
    exact registerWritten_setX _ hlen hr

/-- Settles O35, by the nine subcauses. -/
theorem causeNumbers : Obligations.CauseNumbers := by
  rintro ⟨sub, atPc, value⟩
  cases sub <;> rfl

end Sys2Proof.Machine
end

section
/-! SUPPORT. Frames: what a handler leaves unchanged, one lemma for each part of the state over the inversion lemma of `exec`,
and which faults it can take. Then O27 to O31 and O34. -/

namespace Sys2Proof.Machine

open Sys2Proof.Spec

section
variable {i : Instr} {s t : State}

/-- A handler that answers `t` has had its effect, or it has faulted in its own state. -/
theorem exec_cases (h : exec i s = .next t) :
    Effect s i t ∨ ∃ sub value, Trapped s i sub value ∧ t = s.raiseFault sub (s.handlerIpc i.mnemonic) value := by
  rcases exec_inversion i s with ⟨u, hu, heff⟩ | ⟨sub, value, hu, htrap⟩ <;> rw [hu] at h <;> cases h
  · exact .inl heff
  · exact .inr ⟨sub, value, htrap, rfl⟩

/-- The three-register forms write their third operand (10_state.md R34). -/
theorem destination_of_arith {op : AluOp} {a b d : Byte}
    (hi : (op, i) ∈ [(AluOp.add, Instr.add a b d), (.sub, .sub a b d), (.mul, .mul a b d), (.div, .div a b d)]) :
    destination i = some d := by
  simp only [List.mem_cons, Prod.mk.injEq, List.not_mem_nil, or_false] at hi
  rcases hi with ⟨-, rfl⟩ | ⟨-, rfl⟩ | ⟨-, rfl⟩ | ⟨-, rfl⟩ <;> rfl

/-- A handler writes no register but its destination. -/
theorem exec_x_other (h : exec i s = .next t) {q : Byte} (hq : destination i ≠ some q) : t.x q = s.x q := by
  rcases exec_cases h with heff | ⟨sub, value, -, rfl⟩
  · cases heff with
    | load reg value => exact State.x_setX_other s reg q value fun e => hq (congrArg some e)
    | arith op i a b d y _ _ _ hi =>
      exact State.x_setX_other s d q y fun e => hq ((destination_of_arith hi).trans (congrArg some e))
    | pop reg => exact State.x_setX_other _ reg q _ fun e => hq (congrArg some e)
    | _ => rfl
  · rfl

/-- No handler but PUSH's writes the stack. -/
theorem exec_stack (h : exec i s = .next t) (hi : ∀ reg, i ≠ .push reg) : t.stack = s.stack := by
  rcases exec_cases h with heff | ⟨sub, value, -, rfl⟩
  · cases heff with
    | push reg => exact absurd rfl (hi reg)
    | _ => rfl
  · rfl

/-- No handler but PUSH's and POP's moves `sp`. -/
theorem exec_sp (h : exec i s = .next t) (hpush : ∀ reg, i ≠ .push reg) (hpop : ∀ reg, i ≠ .pop reg) : t.sp = s.sp := by
  rcases exec_cases h with heff | ⟨sub, value, -, rfl⟩
  · cases heff with
    | push reg => exact absurd rfl (hpush reg)
    | pop reg => exact absurd rfl (hpop reg)
    | _ => rfl
  · rfl

/-- No handler but JMP's and JZ's writes `pc`. -/
theorem exec_pc (h : exec i s = .next t) (hjmp : ∀ a, i ≠ .jmp a) (hjz : ∀ reg a, i ≠ .jz reg a) : t.pc = s.pc := by
  rcases exec_cases h with heff | ⟨sub, value, -, rfl⟩
  · cases heff with
    | jmp a => exact absurd rfl (hjmp a)
    | jzTaken reg a => exact absurd rfl (hjz reg a)
    | _ => rfl
  · rfl

/-- No handler writes the memory image, the latches, the sequencer, the parameters or the host's side. -/
theorem exec_restUnchanged (h : exec i s = .next t) : RestUnchanged s t := by
  obtain ⟨hparams, hmem, hir, hseq, hcommands, hreplies, hdraws⟩ := exec_keeps i s t h
  exact ⟨hparams, fun a => by rw [hmem], hir, hseq, hcommands, hreplies, hdraws⟩

/-- What the fault action leaves, given what holds of its record. -/
theorem noFaultOr_raiseFault (s : State) (sub : Subcause) (ipc : Pc) (value : Nat) (rec : FaultRecord → Prop)
    (h : rec ⟨sub, some ipc, value⟩) : NoFaultOr s (s.raiseFault sub ipc value) rec :=
  .inr ⟨_, h, rfl, rfl, rfl⟩

/-- LOAD, ADD, SUB, MUL and DIV do nothing but write their destination, when they do not fault. -/
theorem Effect.eq_setX (h : Effect s i t) (hm : i.mnemonic ∈ [Mnemonic.load, .add, .sub, .mul, .div]) :
    ∃ d v, t = s.setX d v := by
  cases h with
  | load reg value => exact ⟨reg, value, rfl⟩
  | arith op i a b d y => exact ⟨d, y, rfl⟩
  | _ => simp [Instr.mnemonic] at hm

/-- Settles O27: without a fault the handler is one register write, and a fault changes no register. -/
theorem registerWritingFrame : Obligations.RegisterWritingFrame := by
  intro i s t hm h
  have hne {j : Instr} (hj : j.mnemonic ∉ [Mnemonic.load, .add, .sub, .mul, .div]) : i ≠ j := fun e => hj (e ▸ hm)
  have hpush (reg : Byte) : i ≠ .push reg := hne (by simp [Instr.mnemonic])
  refine ⟨fun q hq => exec_x_other h hq, fun a => congrArg (Memory.read · a) (exec_stack h hpush),
    exec_sp h hpush fun _ => hne (by simp [Instr.mnemonic]),
    exec_pc h (fun _ => hne (by simp [Instr.mnemonic])) fun _ _ => hne (by simp [Instr.mnemonic]),
    exec_restUnchanged h, ?_⟩
  rcases exec_cases h with heff | ⟨sub, value, htrap, rfl⟩
  · obtain ⟨d, v, rfl⟩ := heff.eq_setX hm
    exact .inl ⟨rfl, rfl, rfl⟩
  · refine noFaultOr_raiseFault s sub _ value _ ⟨fun _ => rfl, ?_⟩
    cases htrap with
    | index => exact .inl rfl
    | divideByZero => exact .inr rfl
    | _ => simp [Instr.mnemonic] at hm

/-- What HALT, PRINT, JMP and JZ have in common: they have no destination and do not touch the stack. -/
theorem exec_nonStoring (h : exec i s = .next t) (hdest : destination i = none) (hpush : ∀ reg, i ≠ .push reg)
    (hpop : ∀ reg, i ≠ .pop reg) :
    (∀ q, t.x q = s.x q) ∧ (∀ a, t.stackAt a = s.stackAt a) ∧ t.sp = s.sp ∧ RestUnchanged s t :=
  ⟨fun q => exec_x_other h (by rw [hdest]; nofun), fun a => congrArg (Memory.read · a) (exec_stack h hpush),
    exec_sp h hpush hpop, exec_restUnchanged h⟩

/-- Settles O28, instruction by instruction: the common part, and then what the handler does to `running`, the record and the
channel. -/
theorem nonStoringFrame : Obligations.NonStoringFrame := by
  intro i s t hm h
  cases i with
  | halt =>
    obtain ⟨hx, hstack, hsp, hrest⟩ := exec_nonStoring h rfl nofun nofun
    refine ⟨hx, hstack, hsp, hrest, fun _ => exec_pc h nofun nofun, ?_⟩
    rw [exec_halt] at h
    cases h
    exact ⟨rfl, rfl, rfl⟩
  | print reg =>
    obtain ⟨hx, hstack, hsp, hrest⟩ := exec_nonStoring h rfl nofun nofun
    refine ⟨hx, hstack, hsp, hrest, fun _ => exec_pc h nofun nofun, ?_⟩
    rcases exec_cases h with heff | ⟨sub, value, htrap, rfl⟩
    · cases heff with
      | print => exact .inl ⟨rfl, rfl, _, rfl⟩
      | arith op i a b d y _ _ _ hi => simp at hi
    · cases htrap
      exact .inr ⟨_, rfl, rfl, rfl, rfl⟩
  | jmp a =>
    obtain ⟨hx, hstack, hsp, hrest⟩ := exec_nonStoring h rfl nofun nofun
    refine ⟨hx, hstack, hsp, hrest, by simp [Instr.mnemonic], ?_⟩
    rcases exec_cases h with heff | ⟨sub, value, htrap, rfl⟩
    · cases heff with
      | jmp => exact .inl ⟨rfl, rfl, rfl⟩
      | arith op i a b d y _ _ _ hi => simp at hi
    · refine noFaultOr_raiseFault s sub _ value _ ⟨rfl, ?_⟩
      cases htrap with
      | index _ _ _ _ hj => exact absurd rfl (hj a)
      | jumpAddress => exact .inr rfl
  | jz reg a =>
    obtain ⟨hx, hstack, hsp, hrest⟩ := exec_nonStoring h rfl nofun nofun
    refine ⟨hx, hstack, hsp, hrest, by simp [Instr.mnemonic], ?_⟩
    rcases exec_cases h with heff | ⟨sub, value, htrap, rfl⟩
    · cases heff with
      | jzTaken => exact .inl ⟨rfl, rfl, rfl⟩
      | jzNotTaken => exact .inl ⟨rfl, rfl, rfl⟩
      | arith op i a b d y _ _ _ hi => simp at hi
    · refine noFaultOr_raiseFault s sub _ value _ ⟨rfl, ?_⟩
      cases htrap with
      | index => exact .inl rfl
      | branchAddress => exact .inr rfl
  | _ => simp [Instr.mnemonic] at hm

/-- PUSH writes no stack cell but the one `sp` points to before it. -/
theorem exec_push_stackAt_other {reg : Byte} (hwf : s.stack.wf) (h : exec (.push reg) s = .next t) {a : Nat}
    (ha : a ≠ s.sp.toNat) : t.stackAt a = s.stackAt a := by
  rcases exec_cases h with heff | ⟨sub, value, -, rfl⟩
  · cases heff with
    | push => exact Memory.read_write_other _ _ _ _ hwf ha
    | arith op i a b d y _ _ _ hi => simp at hi
  · rfl

/-- Settles O29: PUSH has no destination, and a fault leaves the stack and `sp`. -/
theorem pushFrame : Obligations.PushFrame := by
  intro reg s t hwf h
  refine ⟨fun q => exec_x_other h nofun, fun a ha => exec_push_stackAt_other hwf h ha, exec_pc h nofun nofun,
    exec_restUnchanged h, ?_⟩
  rcases exec_cases h with heff | ⟨sub, value, htrap, rfl⟩
  · cases heff with
    | push => exact .inl ⟨rfl, rfl, rfl⟩
    | arith op i a b d y _ _ _ hi => simp at hi
  · refine noFaultOr_raiseFault s sub _ value _ ⟨rfl, fun _ => rfl, ?_⟩
    cases htrap with
    | index => exact .inl rfl
    | stackUnderflow => exact .inr rfl

/-- Settles O30: POP does not write the stack, and a fault leaves the registers and `sp`. -/
theorem popFrame : Obligations.PopFrame := by
  intro reg s t h
  refine ⟨fun q hq => exec_x_other h fun e => hq (Option.some.inj e),
    fun a => congrArg (Memory.read · a) (exec_stack h nofun), exec_pc h nofun nofun, exec_restUnchanged h, ?_⟩
  rcases exec_cases h with heff | ⟨sub, value, htrap, rfl⟩
  · cases heff with
    | pop => exact .inl ⟨rfl, rfl, rfl⟩
    | arith op i a b d y _ _ _ hi => simp at hi
  · refine noFaultOr_raiseFault s sub _ value _ ⟨rfl, fun _ => rfl, ?_⟩
    cases htrap with
    | index => exact .inl rfl
    | stackOverflow => exact .inr rfl

end

/-! ### A register that an instruction does not read (10_state.md R34) -/

/-- The second answer is the first, but for the register `q`, which holds `v` unless it has been written. -/
def SameBut (q v : Byte) (r r' : Result) : Prop :=
  ∀ t, r = .next t → r' = .next t ∨ r' = .next (t.setX q v)

section
variable {q v : Byte} {s : State}

theorem sameBut_next (t : State) : SameBut q v (.next t) (.next (t.setX q v)) := by
  rintro _ ⟨⟩
  exact .inr rfl

/-- A register written over the changed one hides it; any other write commutes with it. -/
theorem sameBut_setX (s : State) (r w : Byte) : SameBut q v (.next (s.setX r w)) (.next ((s.setX q v).setX r w)) := by
  rintro _ ⟨⟩
  by_cases hr : r = q
  · subst hr
    exact .inl (by rw [State.setX_setX])
  · exact .inr (by rw [State.setX_comm s q r v w hr])

theorem sameBut_trap (m : Mnemonic) (sub : Subcause) (value : Nat) :
    SameBut q v (trap m sub value s) (trap m sub value (s.setX q v)) :=
  sameBut_next _

theorem SameBut.checkReg {r r' : Result} (h : SameBut q v r r') (m : Mnemonic) (i : Byte) :
    SameBut q v (checkReg m i s r) (Machine.checkReg m i (s.setX q v) r') := by
  unfold Machine.checkReg
  rw [State.setX_params]
  split
  · exact h
  · exact sameBut_trap m _ _

theorem SameBut.checkAddr {r r' : Result} (h : SameBut q v r r') (m : Mnemonic) (t : Addr) :
    SameBut q v (checkAddr m t s r) (Machine.checkAddr m t (s.setX q v) r') := by
  unfold Machine.checkAddr
  rw [State.setX_params]
  split
  · exact h
  · exact sameBut_trap m _ _

theorem sameBut_arith (m : Mnemonic) (op : AluOp) (a b d : Byte) (hq : q ∉ [a, b]) :
    SameBut q v (arith m op a b d s) (arith m op a b d (s.setX q v)) := by
  obtain ⟨ha, hb⟩ : q ≠ a ∧ q ≠ b := by simpa using hq
  refine SameBut.checkReg (SameBut.checkReg (SameBut.checkReg ?_ m d) m b) m a
  rw [State.x_setX_other s q a v ha, State.x_setX_other s q b v hb]
  cases alu op (s.x a) (s.x b) with
  | some y => exact sameBut_setX s d y
  | none => exact sameBut_trap m _ _

/-- A register that an instruction does not read changes nothing but itself. -/
theorem sameBut_exec (i : Instr) (s : State) (hq : q ∉ sources i) : SameBut q v (exec i s) (exec i (s.setX q v)) := by
  cases i with
  | halt => exact sameBut_next _
  | load reg value => exact (sameBut_setX s reg value).checkReg .load reg
  | add a b d => exact sameBut_arith .add .add a b d hq
  | sub a b d => exact sameBut_arith .sub .sub a b d hq
  | mul a b d => exact sameBut_arith .mul .mul a b d hq
  | div a b d => exact sameBut_arith .div .div a b d hq
  | jmp t => exact (sameBut_next _).checkAddr .jmp t
  | jz reg t =>
    have hx : (s.setX q v).x reg = s.x reg := State.x_setX_other s q reg v (by simpa [sources] using hq)
    refine SameBut.checkReg (SameBut.checkAddr ?_ .jz t) .jz reg
    rw [hx]
    split <;> exact sameBut_next _
  | push reg =>
    have hx : (s.setX q v).x reg = s.x reg := State.x_setX_other s q reg v (by simpa [sources] using hq)
    refine SameBut.checkReg ?_ .push reg
    rw [hx]
    by_cases hsp : s.sp = 0
    · rw [stackPush_full s _ hsp, stackPush_full (s.setX q v) _ hsp]
      exact sameBut_trap .push _ _
    · rw [stackPush_room s _ hsp, stackPush_room (s.setX q v) _ hsp]
      exact sameBut_next _
  | pop reg =>
    refine SameBut.checkReg ?_ .pop reg
    by_cases hsp : s.sp.toNat < s.params.memorySize - 1
    · rw [stackPop_some s hsp, stackPop_some (s.setX q v) hsp]
      exact sameBut_setX { s with sp := s.sp + 1 } reg _
    · rw [stackPop_empty s (Nat.le_of_not_lt hsp), stackPop_empty (s.setX q v) (Nat.le_of_not_lt hsp)]
      exact sameBut_trap .pop _ _
  | print reg =>
    have hx : (s.setX q v).x reg = s.x reg := State.x_setX_other s q reg v (by simpa [sources] using hq)
    refine SameBut.checkReg ?_ .print reg
    rw [hx]
    exact sameBut_next _

end

/-- Settles O31: of the handlers that do not fault only PRINT's emits, and it has no destination. -/
theorem registerAccessIsThatOfTheTable : Obligations.RegisterAccessIsThatOfTheTable := by
  intro i s t h
  refine ⟨fun q hq => exec_x_other h hq, fun q v hq => sameBut_exec i s hq t h, fun hout q => ?_⟩
  rcases exec_cases h with heff | ⟨sub, value, -, rfl⟩
  · cases heff with
    | print reg => rfl
    | _ => exact absurd rfl hout
  · rfl

/-- The faults a handler can take (60_exceptions.md R268). -/
def handlerFaults : Mnemonic → List Subcause
  | .halt => []
  | .load | .add | .sub | .mul | .print => [.registerIndex]
  | .div => [.registerIndex, .divideByZero]
  | .jmp => [.jumpAddress]
  | .jz => [.registerIndex, .jumpAddress]
  | .push => [.registerIndex, .stackUnderflow]
  | .pop => [.registerIndex, .stackOverflow]

/-- A handler faults for a reason of the table only. -/
theorem Trapped.mem_handlerFaults {s : State} {i : Instr} {sub : Subcause} {value : Nat} (h : Trapped s i sub value) :
    sub ∈ handlerFaults i.mnemonic := by
  cases h with
  | index i r _ hh hj =>
    cases i with
    | halt => exact absurd rfl hh
    | jmp t => exact absurd rfl (hj t)
    | _ => simp [handlerFaults, Instr.mnemonic]
  | _ => simp [handlerFaults, Instr.mnemonic]

/-- A fault event of a handler names the address its record was made with. -/
theorem atPc_of_fault_event (i : Instr) (s t : State) (r : FaultRecord) (h : exec i s = .next t)
    (hout : t.out = s.out ++ [.fault r]) : r.atPc = some (s.handlerIpc i.mnemonic) := by
  rcases exec_cases h with heff | ⟨sub, value, -, rfl⟩
  · exact absurd hout (heff.out_ne_fault r)
  · obtain rfl : (⟨sub, some (s.handlerIpc i.mnemonic), value⟩ : FaultRecord) = r := by simpa using hout
    rfl

/-- Settles O34: a fault event tells the reason and the address the handler faulted with. -/
theorem handlerFaultsAreThoseOfTheTable : Obligations.HandlerFaultsAreThoseOfTheTable := by
  intro i s t r h hout
  refine ⟨fun ipc hpc => ?_, ?_⟩
  · rw [atPc_of_fault_event i s t r h hout, handlerIpc_of_pc s i.mnemonic ipc hpc]
  · have hmem := (trapped_of_fault_event i s t r h hout).mem_handlerFaults
    cases i <;> exact hmem

end Sys2Proof.Machine
end

section
/-! SUPPORT. Everything a host command does on an idle block, said once (60_exceptions.md R290; 70_reset_and_hazards.md).
Then O38 to O42. -/

namespace Sys2Proof.Machine

open Sys2Proof.Spec

/-- What each host command does to an idle block. -/
inductive HostEffect (s : State) : HostCommand → State → Prop where
  | init : HostEffect s .init (s.zeroed s.params.emptySp)
  | reset : HostEffect s .reset (s.zeroed (BitVec.ofNat 16 s.params.spAfterReset))
  | loadOk (p : List Byte) (h : p.length ≤ s.params.memorySize) :
      HostEffect s (.load p) (({ s with mem := s.mem.writeBytes 0 p, running := true } : State).reply .loadOk)
  | loadRefused (p : List Byte) (h : s.params.memorySize < p.length) :
      HostEffect s (.load p) ((s.emit (.fault ⟨.programTooLong, none, p.length⟩)).reply .loadRefused)
  | executeEnters (h : s.running = true) : HostEffect s .execute { s with seq := .fetchOp }
  | executeReturns (h : s.running = false) : HostEffect s .execute (s.reply .executeReturned)

theorem hostExecute_running (s : State) (h : s.running = true) : hostExecute s = { s with seq := .fetchOp } := if_pos h

theorem hostExecute_stopped (s : State) (h : s.running = false) : hostExecute s = s.reply .executeReturned :=
  if_neg (by rw [h]; exact Bool.false_ne_true)

/-- A host command has its effect. -/
theorem hostEffect_perform (c : HostCommand) (s : State) : HostEffect s c (perform c s) := by
  cases c with
  | init => exact .init
  | reset => exact .reset
  | load p =>
    change HostEffect s _ (hostLoad p s)
    by_cases hp : p.length ≤ s.params.memorySize
    · rw [hostLoad_ok p s hp]
      exact .loadOk p hp
    · rw [hostLoad_refused p s (Nat.lt_of_not_le hp)]
      exact .loadRefused p (Nat.lt_of_not_le hp)
  | execute =>
    change HostEffect s _ (hostExecute s)
    cases hrun : s.running with
    | true =>
      rw [hostExecute_running s hrun]
      exact .executeEnters hrun
    | false =>
      rw [hostExecute_stopped s hrun]
      exact .executeReturns hrun

/-- A step in IDLE: nothing is pending and nothing changes, or the next command has its effect. -/
theorem step_idle_effect {s t : State} (hs : s.seq = .idle) (h : step s = .next t) :
    (s.commands = [] ∧ t = s) ∨
      ∃ c rest, s.commands = c :: rest ∧ HostEffect { s with commands := rest } c t := by
  rcases step_idle_cases s t hs h with hnil | ⟨c, rest, hc, rfl⟩
  · exact .inl hnil
  · exact .inr ⟨c, rest, hc, hostEffect_perform c _⟩

/-- Every register of a zeroed register file reads 0. -/
theorem getD_replicate_zero (n k : Nat) : (List.replicate n (0 : Byte)).getD k 0 = 0 := by
  rw [List.getD_eq_getElem?_getD, List.getElem?_replicate]
  split <;> rfl

theorem zeroed_isZeroed (s : State) (sp : Sp) : Zeroed (s.zeroed sp) :=
  ⟨Memory.read_nil, List.length_replicate, fun _ => getD_replicate_zero _ _, Memory.read_nil, rfl, rfl, rfl⟩

theorem fresh_isZeroed (p : Config.Params) : Zeroed (State.fresh p) :=
  ⟨Memory.read_nil, List.length_replicate, fun _ => getD_replicate_zero _ _, Memory.read_nil, rfl, rfl, rfl⟩

/-- Settles O38: reset is the block with the default parameters right after power-on. -/
theorem resetValues : Obligations.ResetValues := ⟨fresh_isZeroed _, rfl, rfl, rfl⟩

/-- Settles O39: legal parameters are built right after power-on, and no others. -/
theorem everyLegalInstanceIsBuilt : Obligations.EveryLegalInstanceIsBuilt := fun p =>
  ⟨fun h => ⟨_, build_legal p h, rfl, fresh_isZeroed p, emptySp_toNat p h, rfl⟩, build_refused p⟩

/-- Settles O40: INIT and RESET are one zeroing of the block, with two values of `sp`. -/
theorem initAndResetZeroTheBlock : Obligations.InitAndResetZeroTheBlock := by
  intro s rest hwf hseq
  refine ⟨fun hc => ?_, fun hc => ?_⟩
  · exact ⟨_, step_idle_cons s _ rest hseq hc, zeroed_isZeroed _ _, ⟨rfl, hseq, rfl, rfl, rfl⟩, emptySp_toNat _ hwf⟩
  · exact ⟨_, step_idle_cons s _ rest hseq hc, zeroed_isZeroed _ _, ⟨rfl, hseq, rfl, rfl, rfl⟩,
      spAfterReset_toNat _ hwf⟩

/-- Settles O41, by read after writing several bytes. -/
theorem loadCommandCopiesTheProgram : Obligations.LoadCommandCopiesTheProgram := by
  intro s p rest hseq hc hp hwf
  have hstep := step_idle_cons s _ rest hseq hc
  rw [perform, hostLoad_ok p { s with commands := rest } hp] at hstep
  have hread (a : Nat) := Memory.read_writeBytes p s.mem 0 a hwf.1
  refine ⟨_, hstep, fun a ha => (hread a).trans (dif_pos ⟨Nat.zero_le a, ha⟩),
    fun a ha => (hread a).trans (dif_neg ?_), rfl⟩
  omega

/-- Settles O42. The step is the refused LOAD of `hostLoad_refused`. -/
theorem loadCommandRefusesALongProgram : Obligations.LoadCommandRefusesALongProgram := by
  intro s p rest hseq hc hp
  rw [step_idle_cons s _ rest hseq hc, perform, hostLoad_refused p { s with commands := rest } hp]
  rfl

end Sys2Proof.Machine
end

section
/-! SUPPORT. Rules about every step, host commands included: case analyses over what an iteration of the loop can touch and
over what a host command does. Then O43, O47, O49 to O52 and O54. -/

namespace Sys2Proof.Machine

open Sys2Proof.Spec

/-! ### The loop's test changes the sequencer and the results only -/

/-- What the loop's test can change. -/
theorem endIteration_eq (s : State) : ∃ seq replies, s.endIteration = { s with seq := seq, replies := replies } := by
  by_cases hrun : s.running = true
  · exact ⟨s.seq, s.replies, endIteration_running s hrun⟩
  · exact ⟨_, _, endIteration_stopped s (Bool.eq_false_of_not_eq_true hrun)⟩

@[simp] theorem endIteration_params (s : State) : s.endIteration.params = s.params := by
  obtain ⟨_, _, h⟩ := endIteration_eq s
  rw [h]

@[simp] theorem endIteration_regs (s : State) : s.endIteration.regs = s.regs := by
  obtain ⟨_, _, h⟩ := endIteration_eq s
  rw [h]

@[simp] theorem endIteration_fault (s : State) : s.endIteration.fault = s.fault := by
  obtain ⟨_, _, h⟩ := endIteration_eq s
  rw [h]

@[simp] theorem endIteration_out (s : State) : s.endIteration.out = s.out := by
  obtain ⟨_, _, h⟩ := endIteration_eq s
  rw [h]

@[simp] theorem endIteration_commands (s : State) : s.endIteration.commands = s.commands := by
  obtain ⟨_, _, h⟩ := endIteration_eq s
  rw [h]

/-! ### The handlers -/

/-- A handler keeps the length of the register file (00_scope.md R8). -/
theorem exec_regs_length {i : Instr} {s t : State} (h : exec i s = .next t) : t.regs.length = s.regs.length := by
  rcases exec_cases h with heff | ⟨sub, value, -, rfl⟩
  · cases heff with
    | load reg value => exact State.length_setX s reg value
    | arith op i a b d y => exact State.length_setX s d y
    | pop reg => exact State.length_setX _ reg _
    | _ => rfl
  · rfl

/-- A handler leaves the fault record, or records a fault and emits it. -/
theorem exec_fault_cases {i : Instr} {s t : State} (h : exec i s = .next t) :
    t.fault = s.fault ∨ ∃ r, t.fault = some r ∧ t.out = s.out ++ [.fault r] := by
  rcases exec_cases h with heff | ⟨sub, value, -, rfl⟩
  · exact .inl heff.fault_eq
  · exact .inr ⟨_, rfl, rfl⟩

/-- A handler emits one event at most. -/
theorem exec_out_cases {i : Instr} {s t : State} (h : exec i s = .next t) :
    t.out = s.out ∨ ∃ e, t.out = s.out ++ [e] := by
  rcases exec_cases h with heff | ⟨sub, value, -, rfl⟩
  · exact heff.out_cases
  · exact .inr ⟨_, rfl⟩

/-! ### An iteration of the loop -/

section
variable {s t : State}

theorem iteration_params_regs (h : iteration s = .next t) : t.params = s.params ∧ t.regs.length = s.regs.length := by
  rcases iteration_touches s t h with ⟨-, rfl⟩ | ⟨-, sub, v, pc, ir, rfl⟩ | ⟨-, i, pc, ir, u, hu, rfl⟩
  · simp
  · simp
  · obtain ⟨hparams, -⟩ := exec_keeps i _ u hu
    have hlen := exec_regs_length hu
    rw [endIteration_params, endIteration_regs]
    exact ⟨hparams, hlen⟩

theorem iteration_commands (h : iteration s = .next t) : t.commands = s.commands := by
  rcases iteration_touches s t h with ⟨-, rfl⟩ | ⟨-, sub, v, pc, ir, rfl⟩ | ⟨-, i, pc, ir, u, hu, rfl⟩
  · simp
  · simp
  · obtain ⟨-, -, -, -, hcommands, -⟩ := exec_keeps i _ u hu
    rw [endIteration_commands, hcommands]

theorem iteration_fault_cases (h : iteration s = .next t) :
    t.fault = s.fault ∨ ∃ r, t.fault = some r ∧ t.out = s.out ++ [.fault r] := by
  rcases iteration_touches s t h with ⟨-, rfl⟩ | ⟨-, sub, v, pc, ir, rfl⟩ | ⟨-, i, pc, ir, u, hu, rfl⟩
  · simp
  · simp
  · simpa using exec_fault_cases hu

theorem iteration_out_cases (h : iteration s = .next t) : t.out = s.out ∨ ∃ e, t.out = s.out ++ [e] := by
  rcases iteration_touches s t h with ⟨-, rfl⟩ | ⟨-, sub, v, pc, ir, rfl⟩ | ⟨-, i, pc, ir, u, hu, rfl⟩
  · simp
  · simp
  · simpa using exec_out_cases hu

/-- Under legal parameters, a step of the loop that changes the stack runs a PUSH. -/
theorem step_fetchOp_stack_ne (hwf : s.params.wf = true) (hseq : s.seq = .fetchOp) (h : step s = .next t)
    (hne : t.stack ≠ s.stack) : ∃ reg, At s (.push reg) := by
  cases hrun : s.running with
  | false =>
    rw [step_fetchOp s hseq, iteration_stopped s hrun, endIteration_stopped s hrun] at h
    cases h
    exact absurd rfl hne
  | true =>
    cases loopStep_of_step ⟨hwf, hseq, hrun⟩ h with
    | effect i ir t hat hnh heff =>
      cases heff with
      | push reg => exact ⟨reg, hat⟩
      | _ => exact absurd rfl hne
    | _ => exact absurd rfl hne

end

/-! ### Every step -/

/-- Settles O43: the sequencer decides whether a command has a move, and no part of the loop touches the commands. -/
theorem noCommandDuringExecute : Obligations.NoCommandDuringExecute := by
  refine ⟨fun c s hseq => ?_, fun s t hseq h => ?_, issue_idle⟩
  · rw [issue, hseq]
  · rw [step_fetchOp s hseq] at h
    exact iteration_commands h

/-- Settles O47: only INIT and RESET make a new register file, of NUM_REGISTERS cells. -/
theorem nothingChangesTheParameters : Obligations.NothingChangesTheParameters := by
  intro s t h
  cases hseq : s.seq with
  | fetchOp =>
    rw [step_fetchOp s hseq] at h
    obtain ⟨hparams, hlen⟩ := iteration_params_regs h
    exact ⟨hparams, hlen.trans⟩
  | idle =>
    rcases step_idle_effect hseq h with ⟨-, rfl⟩ | ⟨c, rest, -, heff⟩
    · exact ⟨rfl, id⟩
    · cases heff with
      | init => exact ⟨rfl, fun _ => List.length_replicate⟩
      | reset => exact ⟨rfl, fun _ => List.length_replicate⟩
      | _ => exact ⟨rfl, id⟩

/-- Settles O49: in the loop only PUSH's handler writes the stack; of the host commands only INIT and RESET do. -/
theorem onlyPushWritesTheStack : Obligations.OnlyPushWritesTheStack := by
  intro s t hwf h hne
  cases hseq : s.seq with
  | fetchOp => exact .inl ⟨rfl, step_fetchOp_stack_ne hwf hseq h hne⟩
  | idle =>
    rcases step_idle_effect hseq h with ⟨-, rfl⟩ | ⟨c, rest, hc, heff⟩
    · exact absurd rfl hne
    · cases heff with
      | init => exact .inr ⟨rfl, fun _ => rfl, rest, .inl hc⟩
      | reset => exact .inr ⟨rfl, fun _ => rfl, rest, .inr hc⟩
      | _ => exact absurd rfl hne

/-- A step of the loop does not set `running`. -/
theorem step_fetchOp_running {s t : State} (hseq : s.seq = .fetchOp) (hrun : s.running = false) (h : step s = .next t) :
    t.running = false := by
  rw [step_fetchOp s hseq, iteration_stopped s hrun, endIteration_stopped s hrun] at h
  cases h
  exact hrun

/-- Settles O50: a step of the loop only clears `running`, at HALT or by a fault; then the host commands one by one. -/
theorem runningIsWrittenOnlyAsListed : Obligations.RunningIsWrittenOnlyAsListed := by
  intro s t hwf h
  cases hseq : s.seq with
  | fetchOp =>
    refine ⟨fun hrun ht => ?_, fun hrun ht => .inl ⟨rfl, ?_⟩⟩
    · rw [step_fetchOp_running hseq hrun h] at ht
      cases ht
    · have hs : Stepping s := ⟨hwf, hseq, hrun⟩
      rcases (loopStep_of_step hs h).cases_running hs with
        ⟨⟨-, -, ht'⟩, -⟩ | ⟨-, -, ⟨hhalt, -⟩ | ⟨-, pc, ir, sub, value, rfl⟩⟩
      · rw [ht] at ht'
        cases ht'
      · exact .inl hhalt
      · exact .inr ⟨_, rfl, rfl⟩
  | idle =>
    rcases step_idle_effect hseq h with ⟨-, rfl⟩ | ⟨c, rest, hc, heff⟩
    · exact ⟨fun hrun ht => absurd (hrun.symm.trans ht) nofun, fun hrun ht => absurd (hrun.symm.trans ht) nofun⟩
    · cases heff with
      | init => exact ⟨nofun, fun _ _ => .inr ⟨rfl, rest, .inl hc⟩⟩
      | reset => exact ⟨nofun, fun _ _ => .inr ⟨rfl, rest, .inr hc⟩⟩
      | loadOk p hp => exact ⟨fun _ _ => ⟨rfl, p, rest, hc, hp⟩, nofun⟩
      | _ => exact ⟨fun hrun ht => absurd (hrun.symm.trans ht) nofun, fun hrun ht => absurd (hrun.symm.trans ht) nofun⟩

/-- Settles O51: the loop records only what it emits, and of the host commands only INIT and RESET touch the record. -/
theorem faultRecordIsSticky : Obligations.FaultRecordIsSticky := by
  intro s t h hne
  cases hseq : s.seq with
  | fetchOp =>
    rw [step_fetchOp s hseq] at h
    rcases iteration_fault_cases h with heq | hr
    · exact absurd heq hne
    · exact .inr ⟨rfl, hr⟩
  | idle =>
    rcases step_idle_effect hseq h with ⟨-, rfl⟩ | ⟨c, rest, hc, heff⟩
    · exact absurd rfl hne
    · cases heff with
      | init => exact .inl ⟨rfl, rfl, rest, .inl hc⟩
      | reset => exact .inl ⟨rfl, rfl, rest, .inr hc⟩
      | _ => exact absurd rfl hne

/-- Settles O52: of the host commands only a refused LOAD emits. -/
theorem channelIsAppendOnly : Obligations.ChannelIsAppendOnly := by
  intro s t h
  cases hseq : s.seq with
  | fetchOp => exact iteration_out_cases ((step_fetchOp s hseq).symm.trans h)
  | idle =>
    rcases step_idle_effect hseq h with ⟨-, rfl⟩ | ⟨c, rest, -, heff⟩
    · exact .inl rfl
    · cases heff with
      | loadRefused p => exact .inr ⟨_, rfl⟩
      | _ => exact .inl rfl

/-- A run of a machine takes one step and goes on. -/
theorem run_succ (M : Host.Core) {s t : M.State} (k : Nat) (h : M.step s = .next t) : M.run (k + 1) s = M.run k t := by
  rw [Host.Core.run, h]

/-- Settles O54, by induction on the number of steps. -/
theorem haltedStateSurvives : Obligations.HaltedStateSurvives := by
  intro s k hseq hc
  induction k with
  | zero => rfl
  | succ k ih => exact (run_succ core k (step_idle_nil s hseq hc)).trans ih

end Sys2Proof.Machine
end

section
/-! SUPPORT. PUSH and POP over lists of handlers (43_stack.md R233, R234), by induction on the list of registers. Then O36 and
O37. -/

namespace Sys2Proof.Machine

open Sys2Proof.Spec

/-- The state after a PUSH with room on the stack (43_stack.md R231). -/
def pushed (r : Byte) (s : State) : State :=
  { s with stack := s.stack.write s.sp.toNat (s.x r), sp := s.sp - 1 }

section
variable {r : Byte} {s : State}

theorem pushed_sp_toNat (hsp : s.sp.toNat ≠ 0) : (pushed r s).sp.toNat = s.sp.toNat - 1 := by
  show (s.sp - 1).toNat = s.sp.toNat - 1
  bv_omega

theorem pushed_stack_wf (hwf : s.stack.wf) : (pushed r s).stack.wf := Memory.write_wf _ _ _ hwf

theorem pushed_stackAt_same (hwf : s.stack.wf) : (pushed r s).stackAt s.sp.toNat = s.x r :=
  Memory.read_write_same _ _ _ hwf

theorem pushed_stackAt_other (hwf : s.stack.wf) {i : Nat} (hi : i ≠ s.sp.toNat) :
    (pushed r s).stackAt i = s.stackAt i :=
  Memory.read_write_other _ _ _ _ hwf hi

end

/-- A handler that answers `t`, and then the others from `t`. -/
theorem execAll_cons {i : Instr} {s t : State} (is : List Instr) (h : exec i s = .next t) :
    execAll (i :: is) s = execAll is t := by
  rw [execAll, h]

/-- Two lists of handlers, one after the other. -/
theorem execAll_append {is : List Instr} (js : List Instr) : ∀ {s t : State}, execAll is s = .next t →
    execAll (is ++ js) s = execAll js t := by
  induction is with
  | nil =>
    rintro s t ⟨⟩
    rfl
  | cons i is ih =>
    intro s t h
    obtain ⟨u, hu⟩ := exec_next i s
    rw [execAll_cons is hu] at h
    rw [List.cons_append, execAll_cons _ hu]
    exact ih h

/-- Writing a register with what it holds changes nothing. -/
theorem setX_x_self (s : State) (r : Byte) : s.setX r (s.x r) = s := by
  have hregs : s.regs.set r.toNat (s.regs.getD r.toNat 0) = s.regs := by
    by_cases hr : r.toNat < s.regs.length
    · rw [List.getD_eq_getElem _ _ hr, List.set_getElem_self]
    · exact List.set_eq_of_length_le (Nat.le_of_not_lt hr)
  rw [State.setX, State.x, hregs]

/-- Settles O36. The induction takes the first PUSH and the last POP off the list: between them `sp` is one less, so the cell
the PUSH wrote is not touched, and the POP reads it back. -/
theorem pushesThenPopsRestoreInLifoOrder : Obligations.PushesThenPopsRestoreInLifoOrder := by
  intro rs
  induction rs with
  | nil => exact fun s _ _ _ _ => ⟨s, rfl, rfl, fun _ _ => rfl⟩
  | cons r rs ih =>
    intro s hregs hlen hwf hlt
    rw [List.length_cons] at hlen
    have hr : IsRegister s r := hregs r List.mem_cons_self
    have hsp : (pushed r s).sp.toNat = s.sp.toNat - 1 := pushed_sp_toNat (by omega)
    have hpush : exec (.push r) s = .next (pushed r s) := exec_push_ok r s hr (by omega)
    obtain ⟨t, ht, heq, hcells⟩ := ih (pushed r s) (fun q hq => hregs q (List.mem_cons_of_mem _ hq)) (by omega)
      (pushed_stack_wf hwf) (by rw [hsp]; exact (Nat.sub_le _ _).trans_lt hlt)
    have htsp : t.sp + 1 = s.sp := by
      rw [heq]
      exact BitVec.sub_add_cancel s.sp 1
    have hpop : exec (.pop r) t = .next { s with stack := t.stack } := by
      have htop : t.stackAt s.sp.toNat = s.x r := (hcells _ (.inl (by omega))).trans (pushed_stackAt_same hwf)
      have hroom : t.sp.toNat < t.params.memorySize - 1 := by
        rw [heq]
        show (pushed r s).sp.toNat < s.params.memorySize - 1
        omega
      have hreg : IsRegister t r := by
        rw [heq]
        exact hr
      rw [exec_pop_ok r t hreg hroom, htsp, htop]
      have hback : ({ t with sp := s.sp } : State) = { s with stack := t.stack } := by rw [heq]; rfl
      rw [hback]
      exact congrArg _ (setX_x_self { s with stack := t.stack } r)
    refine ⟨{ s with stack := t.stack }, ?_, rfl, fun i hi => ?_⟩
    · have hsplit : (r :: rs).map Instr.push ++ (r :: rs).reverse.map Instr.pop =
          Instr.push r :: ((rs.map Instr.push ++ rs.reverse.map Instr.pop) ++ [Instr.pop r]) := by simp
      rw [hsplit, execAll_cons _ hpush, execAll_append _ ht, execAll_cons _ hpop]
      rfl
    · rw [List.length_cons] at hi
      exact (hcells i (by omega)).trans (pushed_stackAt_other hwf (by omega))

/-- Pushes that fit run without a fault and fill the cells from `sp` down, in order. -/
theorem execAll_pushes (rs : List Byte) : ∀ s : State, (∀ r ∈ rs, IsRegister s r) → rs.length ≤ s.sp.toNat → s.stack.wf →
    ∃ t, execAll (rs.map Instr.push) s = .next t ∧
      t = { s with stack := t.stack, sp := s.sp - BitVec.ofNat 16 rs.length } ∧
      (∀ (k : Nat) (hk : k < rs.length), t.stackAt (s.sp.toNat - k) = s.x rs[k]) ∧
      ∀ i, (s.sp.toNat < i ∨ i + rs.length ≤ s.sp.toNat) → t.stackAt i = s.stackAt i := by
  induction rs with
  | nil =>
    intro s _ _ _
    refine ⟨s, rfl, ?_, fun k hk => absurd hk (Nat.not_lt_zero k), fun _ _ => rfl⟩
    rw [List.length_nil, BitVec.sub_zero]
  | cons r rs ih =>
    intro s hregs hlen hwf
    rw [List.length_cons] at hlen
    have hsp : (pushed r s).sp.toNat = s.sp.toNat - 1 := pushed_sp_toNat (by omega)
    have hpush : exec (.push r) s = .next (pushed r s) := exec_push_ok r s (hregs r List.mem_cons_self) (by omega)
    obtain ⟨t, ht, heq, hcells, hother⟩ := ih (pushed r s) (fun q hq => hregs q (List.mem_cons_of_mem _ hq)) (by omega)
      (pushed_stack_wf hwf)
    have hdown : (pushed r s).sp - BitVec.ofNat 16 rs.length = s.sp - BitVec.ofNat 16 (rs.length + 1) := by
      show s.sp - 1 - BitVec.ofNat 16 rs.length = _
      bv_omega
    refine ⟨t, (execAll_cons _ hpush).trans ht, ?_, fun k hk => ?_, fun i hi => ?_⟩
    · rw [hdown] at heq
      exact heq
    · cases k with
      | zero => exact (hother _ (.inl (by omega))).trans (pushed_stackAt_same hwf)
      | succ k =>
        have hk' : k < rs.length := by simpa using hk
        have haddr : s.sp.toNat - (k + 1) = (pushed r s).sp.toNat - k := by omega
        rw [haddr]
        exact hcells k hk'
    · rw [List.length_cons] at hi
      exact (hother i (by omega)).trans (pushed_stackAt_other hwf (by omega))

/-- Settles O37: the pushes fill the cells from the empty position down, and end with `sp = 0`. -/
theorem stackHoldsOneByteLessThanItsSize : Obligations.StackHoldsOneByteLessThanItsSize := by
  intro rs s hregs hlen hsp hwf
  obtain ⟨t, ht, heq, hcells, hother⟩ := execAll_pushes rs s hregs (by omega) hwf
  have hzero : s.sp - BitVec.ofNat 16 rs.length = 0 := by
    rw [hlen, ← hsp, BitVec.ofNat_toNat, BitVec.setWidth_eq]
    exact BitVec.sub_self _
  rw [hzero] at heq
  refine ⟨t, ht, heq, fun k hk => ?_, hother 0 (.inr (by omega)), fun r ipc hr hpc => ?_⟩
  · rw [← hsp]
    exact hcells k hk
  · have hreg : IsRegister t r := by
      rw [heq]
      exact hr
    exact exec_push_faulted r t ipc hpc hreg (by rw [heq]; rfl)

end Sys2Proof.Machine
end

section
/-! SUPPORT. What no program can observe (10_state.md R50; 60_exceptions.md R280): every part of a step makes the same move from
two states that are the same to a program. Then O53, and O44 over runs. -/

namespace Sys2Proof.Machine

open Sys2Proof.Spec Sys2Proof.Safety

/-- The state with other latches, another channel, other results and another counter of free values. -/
def outside (s : State) (ir : InstrReg) (out : List Event) (replies : List Reply) (draws : Nat) : State :=
  { s with ir := ir, out := out, replies := replies, draws := draws }

theorem sameToProgram_outside (s : State) (ir : InstrReg) (out : List Event) (replies : List Reply) (draws : Nat) :
    SameToProgram s (outside s ir out replies draws) :=
  ⟨rfl, rfl, rfl, rfl, rfl, rfl, rfl, rfl, rfl, rfl⟩

/-- States that are the same to a program differ in those four fields only. -/
theorem exists_eq_outside {s t : State} (h : SameToProgram s t) :
    ∃ ir out replies draws, t = outside s ir out replies draws := by
  obtain ⟨hparams, hmem, hregs, hstack, hpc, hsp, hrunning, hfault, hseq, hcommands⟩ := h
  refine ⟨t.ir, t.out, t.replies, t.draws, ?_⟩
  rw [outside, hparams, hmem, hregs, hstack, hpc, hsp, hrunning, hfault, hseq, hcommands]

/-- From `s` to `s'` and from `t` to `t'` is the same move: the ends are the same to a program, and the new events and the new
results are the same. -/
structure SameMove (s t s' t' : State) : Prop where
  same : SameToProgram s' t'
  events : ∃ es, s'.out = s.out ++ es ∧ t'.out = t.out ++ es
  results : ∃ rs, s'.replies = s.replies ++ rs ∧ t'.replies = t.replies ++ rs

/-- Two answers are next states, by the same move. -/
def SameAnswer (s t : State) (r r' : Result) : Prop :=
  ∃ s' t', r = .next s' ∧ r' = .next t' ∧ SameMove s t s' t'

section
variable {s t s' t' : State}

/-- A move that emits nothing and gives no result. -/
theorem sameMove_silent (h : SameToProgram s' t') (hout : s'.out = s.out) (hout' : t'.out = t.out)
    (hreplies : s'.replies = s.replies) (hreplies' : t'.replies = t.replies) : SameMove s t s' t' :=
  ⟨h, ⟨[], by simpa using hout, by simpa using hout'⟩, ⟨[], by simpa using hreplies, by simpa using hreplies'⟩⟩

/-- A move that emits one event and gives no result. -/
theorem sameMove_event (e : Event) (h : SameToProgram s' t') (hout : s'.out = s.out ++ [e])
    (hout' : t'.out = t.out ++ [e]) (hreplies : s'.replies = s.replies) (hreplies' : t'.replies = t.replies) :
    SameMove s t s' t' :=
  ⟨h, ⟨[e], hout, hout'⟩, ⟨[], by simpa using hreplies, by simpa using hreplies'⟩⟩

theorem SameMove.trans {s1 t1 s2 t2 : State} (h : SameMove s t s1 t1) (h' : SameMove s1 t1 s2 t2) :
    SameMove s t s2 t2 := by
  obtain ⟨-, ⟨es, hs, ht⟩, ⟨rs, hrs, hrt⟩⟩ := h
  obtain ⟨hsame, ⟨es', hs', ht'⟩, ⟨rs', hrs', hrt'⟩⟩ := h'
  refine ⟨hsame, ⟨es ++ es', ?_, ?_⟩, ⟨rs ++ rs', ?_, ?_⟩⟩
  · rw [hs', hs, List.append_assoc]
  · rw [ht', ht, List.append_assoc]
  · rw [hrs', hrs, List.append_assoc]
  · rw [hrt', hrt, List.append_assoc]

/-- A result more to the host keeps the move the same. -/
theorem SameMove.reply (h : SameMove s t s' t') (r : Reply) : SameMove s t (s'.reply r) (t'.reply r) := by
  obtain ⟨hsame, hevents, ⟨rs, hrs, hrt⟩⟩ := h
  refine ⟨{ hsame with }, hevents, ⟨rs ++ [r], ?_, ?_⟩⟩
  · rw [State.reply_replies, hrs, List.append_assoc]
  · rw [State.reply_replies, hrt, List.append_assoc]

/-- The loop's test keeps the move the same. -/
theorem SameMove.endIteration (h : SameMove s t s' t') : SameMove s t s'.endIteration t'.endIteration := by
  have hrun' : s'.running = t'.running := h.same.running
  cases hrun : s'.running with
  | true =>
    rw [endIteration_running s' hrun, endIteration_running t' (hrun'.symm.trans hrun)]
    exact h
  | false =>
    rw [endIteration_stopped s' hrun, endIteration_stopped t' (hrun'.symm.trans hrun)]
    have hidle : SameMove s t { s' with seq := .idle } { t' with seq := .idle } :=
      ⟨{ h.same with seq := rfl }, h.events, h.results⟩
    exact hidle.reply .executeReturned

/-! ### The handlers -/

section
variable (h : SameToProgram s t)
include h

theorem sameMove_refl : SameMove s t s t := sameMove_silent h rfl rfl rfl rfl

theorem sameMove_setX (r v : Byte) : SameMove s t (s.setX r v) (t.setX r v) := by
  obtain ⟨ir, out, replies, draws, rfl⟩ := exists_eq_outside h
  exact sameMove_silent (sameToProgram_outside _ ir out replies draws) rfl rfl rfl rfl

theorem sameMove_pcLoad (a : Addr) : SameMove s t (s.pcLoad a) (t.pcLoad a) := by
  obtain ⟨ir, out, replies, draws, rfl⟩ := exists_eq_outside h
  exact sameMove_silent (sameToProgram_outside _ ir out replies draws) rfl rfl rfl rfl

theorem sameMove_emit (e : Event) : SameMove s t (s.emit e) (t.emit e) := by
  obtain ⟨ir, out, replies, draws, rfl⟩ := exists_eq_outside h
  exact sameMove_event e (sameToProgram_outside _ ir _ replies draws) rfl rfl rfl rfl

theorem sameMove_raiseFault (sub : Subcause) (ipc : Pc) (value : Nat) :
    SameMove s t (s.raiseFault sub ipc value) (t.raiseFault sub ipc value) := by
  obtain ⟨ir, out, replies, draws, rfl⟩ := exists_eq_outside h
  exact sameMove_event _ (sameToProgram_outside _ ir _ replies draws) rfl rfl rfl rfl

theorem sameAnswer_trap (m : Mnemonic) (sub : Subcause) (value : Nat) :
    SameAnswer s t (trap m sub value s) (trap m sub value t) := by
  have hipc : s.handlerIpc m = t.handlerIpc m := by rw [State.handlerIpc, State.handlerIpc, h.pc]
  rw [trap_eq, trap_eq, hipc]
  exact ⟨_, _, rfl, rfl, sameMove_raiseFault h _ _ _⟩

theorem sameAnswer_checkReg {r r' : Result} (hr : SameAnswer s t r r') (m : Mnemonic) (i : Byte) :
    SameAnswer s t (checkReg m i s r) (checkReg m i t r') := by
  unfold checkReg
  rw [← h.params]
  split
  · exact hr
  · exact sameAnswer_trap h m _ _

theorem sameAnswer_checkAddr {r r' : Result} (hr : SameAnswer s t r r') (m : Mnemonic) (a : Addr) :
    SameAnswer s t (checkAddr m a s r) (checkAddr m a t r') := by
  unfold checkAddr
  rw [← h.params]
  split
  · exact hr
  · exact sameAnswer_trap h m _ _

theorem x_eq_of_same (r : Byte) : t.x r = s.x r := by rw [State.x, State.x, h.regs]

theorem sameAnswer_arith (m : Mnemonic) (op : AluOp) (a b d : Byte) :
    SameAnswer s t (arith m op a b d s) (arith m op a b d t) := by
  refine sameAnswer_checkReg h (sameAnswer_checkReg h (sameAnswer_checkReg h ?_ m d) m b) m a
  rw [x_eq_of_same h a, x_eq_of_same h b]
  cases alu op (s.x a) (s.x b) with
  | some y => exact ⟨_, _, rfl, rfl, sameMove_setX h d y⟩
  | none => exact sameAnswer_trap h m _ _

theorem sameAnswer_push (reg : Byte) : SameAnswer s t (execPush reg s) (execPush reg t) := by
  refine sameAnswer_checkReg h ?_ .push reg
  rw [x_eq_of_same h reg]
  by_cases hsp : s.sp = 0
  · rw [stackPush_full s _ hsp, stackPush_full t _ (h.sp.symm.trans hsp), ← h.sp]
    exact sameAnswer_trap h .push _ _
  · rw [stackPush_room s _ hsp, stackPush_room t _ (h.sp ▸ hsp)]
    obtain ⟨ir, out, replies, draws, rfl⟩ := exists_eq_outside h
    exact ⟨_, _, rfl, rfl, sameMove_silent (sameToProgram_outside _ ir out replies draws) rfl rfl rfl rfl⟩

theorem sameAnswer_pop (reg : Byte) : SameAnswer s t (execPop reg s) (execPop reg t) := by
  refine sameAnswer_checkReg h ?_ .pop reg
  obtain ⟨ir, out, replies, draws, rfl⟩ := exists_eq_outside h
  by_cases hsp : s.sp.toNat < s.params.memorySize - 1
  · rw [stackPop_some s hsp, stackPop_some (outside s ir out replies draws) hsp]
    exact ⟨_, _, rfl, rfl, sameMove_silent (sameToProgram_outside _ ir out replies draws) rfl rfl rfl rfl⟩
  · rw [stackPop_empty s (Nat.le_of_not_lt hsp), stackPop_empty (outside s ir out replies draws) (Nat.le_of_not_lt hsp)]
    exact sameAnswer_trap h .pop _ _

/-- Every handler makes the same move from states that are the same to a program. -/
theorem sameAnswer_exec (i : Instr) : SameAnswer s t (exec i s) (exec i t) := by
  cases i with
  | halt =>
    obtain ⟨ir, out, replies, draws, rfl⟩ := exists_eq_outside h
    exact ⟨_, _, rfl, rfl, sameMove_silent (sameToProgram_outside _ ir out replies draws) rfl rfl rfl rfl⟩
  | load reg value => exact sameAnswer_checkReg h ⟨_, _, rfl, rfl, sameMove_setX h reg value⟩ .load reg
  | add a b d => exact sameAnswer_arith h .add .add a b d
  | sub a b d => exact sameAnswer_arith h .sub .sub a b d
  | mul a b d => exact sameAnswer_arith h .mul .mul a b d
  | div a b d => exact sameAnswer_arith h .div .div a b d
  | jmp a => exact sameAnswer_checkAddr h ⟨_, _, rfl, rfl, sameMove_pcLoad h a⟩ .jmp a
  | jz reg a =>
    refine sameAnswer_checkReg h (sameAnswer_checkAddr h ⟨_, _, rfl, rfl, ?_⟩ .jz a) .jz reg
    rw [x_eq_of_same h reg]
    split
    · exact sameMove_pcLoad h a
    · exact sameMove_refl h
  | push reg => exact sameAnswer_push h reg
  | pop reg => exact sameAnswer_pop h reg
  | print reg =>
    refine sameAnswer_checkReg h ⟨_, _, rfl, rfl, ?_⟩ .print reg
    rw [x_eq_of_same h reg]
    exact sameMove_emit h _

/-- The loop makes the same move from states that are the same to a program. -/
theorem sameAnswer_iteration : SameAnswer s t (iteration s) (iteration t) := by
  cases hrun : s.running with
  | false =>
    rw [iteration_stopped s hrun, iteration_stopped t (h.running.symm.trans hrun)]
    exact ⟨_, _, rfl, rfl, (sameMove_refl h).endIteration⟩
  | true =>
    rw [iteration, iteration, if_pos hrun, if_pos (h.running.symm.trans hrun)]
    obtain ⟨ir, out, replies, draws, rfl⟩ := exists_eq_outside h
    rcases fetchDecode_ignores s ir out replies draws with
      ⟨sub, pc, ir1, ir2, v, hs, ht⟩ | ⟨i, pc, ir1, ir2, hs, ht⟩
    · have hmove :=
        sameMove_raiseFault (sameToProgram_outside { s with pc := pc, ir := ir1 } ir2 out replies draws) sub s.pc v
      rw [hs, outside, ht]
      exact ⟨_, _, rfl, rfl, SameMove.endIteration ⟨hmove.same, hmove.events, hmove.results⟩⟩
    · obtain ⟨u, w, hu, hw, hmove⟩ :=
        sameAnswer_exec (sameToProgram_outside { s with pc := pc, ir := ir1 } ir2 out replies draws) i
      have hmove' : SameMove s (outside s ir out replies draws) u w := ⟨hmove.same, hmove.events, hmove.results⟩
      rw [hs, outside, ht]
      exact ⟨_, _, congrArg afterHandler hu, congrArg afterHandler hw, hmove'.endIteration⟩

/-- A host command makes the same move from states that are the same to a program. -/
theorem sameMove_perform (c : HostCommand) : SameMove s t (perform c s) (perform c t) := by
  obtain ⟨ir, out, replies, draws, rfl⟩ := exists_eq_outside h
  cases c with
  | init => exact sameMove_silent (sameToProgram_outside _ _ out replies _) rfl rfl rfl rfl
  | reset => exact sameMove_silent (sameToProgram_outside _ _ out replies _) rfl rfl rfl rfl
  | load p =>
    rw [perform, perform]
    by_cases hp : p.length ≤ s.params.memorySize
    · rw [hostLoad_ok p s hp, hostLoad_ok p (outside s ir out replies draws) hp]
      refine SameMove.reply ?_ .loadOk
      exact sameMove_silent (sameToProgram_outside _ ir out replies draws) rfl rfl rfl rfl
    · rw [hostLoad_refused p s (Nat.lt_of_not_le hp),
        hostLoad_refused p (outside s ir out replies draws) (Nat.lt_of_not_le hp)]
      exact (sameMove_emit h _).reply .loadRefused
  | execute =>
    rw [perform, perform]
    cases hrun : s.running with
    | true =>
      rw [hostExecute_running s hrun, hostExecute_running (outside s ir out replies draws) hrun]
      exact sameMove_silent (sameToProgram_outside _ ir out replies draws) rfl rfl rfl rfl
    | false =>
      rw [hostExecute_stopped s hrun, hostExecute_stopped (outside s ir out replies draws) hrun]
      exact (sameMove_refl h).reply .executeReturned

/-- Every step makes the same move from states that are the same to a program. -/
theorem sameAnswer_step : SameAnswer s t (step s) (step t) := by
  cases hseq : s.seq with
  | fetchOp =>
    rw [step_fetchOp s hseq, step_fetchOp t (h.seq.symm.trans hseq)]
    exact sameAnswer_iteration h
  | idle =>
    have hseq' : t.seq = .idle := h.seq.symm.trans hseq
    cases hc : s.commands with
    | nil => exact ⟨s, t, step_idle_nil s hseq hc, step_idle_nil t hseq' (h.commands.symm.trans hc), sameMove_refl h⟩
    | cons c rest =>
      have hmove := sameMove_perform (s := { s with commands := rest }) (t := { t with commands := rest })
        { h with commands := rfl } c
      exact ⟨_, _, step_idle_cons s c rest hseq hc, step_idle_cons t c rest hseq' (h.commands.symm.trans hc),
        hmove.same, hmove.events, hmove.results⟩

end

end

/-- Settles O53: the two steps make the same move. -/
theorem latchesAndChannelAreUnobservable : Obligations.LatchesAndChannelAreUnobservable := by
  intro s t s' h hstep
  obtain ⟨u, t', hu, ht', hmove⟩ := sameAnswer_step h
  rw [hstep] at hu
  cases hu
  exact ⟨t', ht', hmove.same, hmove.events, hmove.results⟩

/-- Runs of any length make the same move from states that are the same to a program. -/
theorem sameAnswer_run (k : Nat) : ∀ {s t : State}, SameToProgram s t → SameAnswer s t (core.run k s) (core.run k t) := by
  induction k with
  | zero => exact fun h => ⟨_, _, rfl, rfl, sameMove_refl h⟩
  | succ k ih =>
    intro s t h
    obtain ⟨s1, t1, hs, ht, hmove⟩ := sameAnswer_step h
    obtain ⟨u, f, hu, hf, hmove'⟩ := ih hmove.same
    exact ⟨u, f, (run_succ core k hs).trans hu, (run_succ core k ht).trans hf, hmove.trans hmove'⟩

/-- Settles O44: RESET leaves a block that is the same to a program as a fresh one (70_reset_and_hazards.md R309), and from
there the two runs make the same move. -/
theorem resetMakesTheBlockFresh : Obligations.ResetMakesTheBlockFresh := by
  intro s p k hseq hc hsp
  have hreset := step_idle_cons s .reset [.load p, .execute] hseq hc
  have hsame : SameToProgram (perform .reset { s with commands := [.load p, .execute] })
      { State.fresh s.params with commands := [.load p, .execute] } :=
    ⟨rfl, rfl, rfl, rfl, rfl, congrArg (BitVec.ofNat 16) hsp, rfl, rfl, hseq, rfl⟩
  obtain ⟨u, f, hu, hf, hmove⟩ := sameAnswer_run k hsame
  obtain ⟨hsame', ⟨es, hs, hf'⟩, ⟨rs, hrs, hrf⟩⟩ := hmove
  refine ⟨u, f, (run_succ core k hreset).trans hu, hf, hsame', ?_, ?_⟩
  · rw [hs, hf']
    rfl
  · rw [hrs, hrf]
    rfl

end Sys2Proof.Machine
end

section
/-! SUPPORT. Runs under fuel (40_execute_loop.md R142, R143). Then O55 and O56. -/

namespace Sys2Proof.Machine

open Sys2Proof.Spec

/-- A block in IDLE has ended its run, under any fuel. -/
theorem runExecute_idle (k : Nat) (s : State) (h : s.seq = .idle) : runExecute k s = .next (runEnd s) := by
  cases k <;> simp [runExecute, h]

/-- Without fuel a run in progress is out of fuel. -/
theorem runExecute_zero (s : State) (h : s.seq = .fetchOp) : runExecute 0 s = .next (.outOfFuel s) := by
  simp [runExecute, h]

/-- A run in progress takes one step and goes on with one fuel less. -/
theorem runExecute_succ (k : Nat) {s t : State} (h : s.seq = .fetchOp) (hstep : step s = .next t) :
    runExecute (k + 1) s = runExecute k t := by
  simp [runExecute, h, hstep]

/-- The end of a run tells whether a fault is recorded. -/
theorem runEnd_eq_halted {s t : State} : runEnd s = .halted t ↔ s = t ∧ t.fault = none := by
  unfold runEnd
  cases hf : s.fault with
  | none => exact ⟨by rintro ⟨⟩; exact ⟨rfl, hf⟩, by rintro ⟨rfl, -⟩; rfl⟩
  | some r => exact ⟨nofun, by rintro ⟨rfl, h⟩; rw [hf] at h; cases h⟩

theorem runEnd_eq_faulted {s t : State} : runEnd s = .faulted t ↔ s = t ∧ t.fault ≠ none := by
  unfold runEnd
  cases hf : s.fault with
  | none => exact ⟨nofun, by rintro ⟨rfl, h⟩; exact absurd hf h⟩
  | some r => exact ⟨by rintro ⟨⟩; exact ⟨rfl, by rw [hf]; nofun⟩, by rintro ⟨rfl, -⟩; rfl⟩

/-- A run is out of fuel, or it has ended in some state and more fuel changes nothing. -/
theorem runExecute_cases (k : Nat) : ∀ s : State, (∃ u, runExecute k s = .next (.outOfFuel u)) ∨
    ∃ u, runExecute k s = .next (runEnd u) ∧ ∀ j, k ≤ j → runExecute j s = .next (runEnd u) := by
  induction k with
  | zero =>
    intro s
    cases hseq : s.seq with
    | idle => exact .inr ⟨s, runExecute_idle 0 s hseq, fun j _ => runExecute_idle j s hseq⟩
    | fetchOp => exact .inl ⟨s, runExecute_zero s hseq⟩
  | succ k ih =>
    intro s
    cases hseq : s.seq with
    | idle => exact .inr ⟨s, runExecute_idle _ s hseq, fun j _ => runExecute_idle j s hseq⟩
    | fetchOp =>
      obtain ⟨t, hstep⟩ := exists_step_next s
      rw [runExecute_succ k hseq hstep]
      rcases ih t with hout | ⟨u, hu, hmore⟩
      · exact .inl hout
      · refine .inr ⟨u, hu, fun j hj => ?_⟩
        obtain ⟨j, rfl⟩ : ∃ i, j = i + 1 := ⟨j - 1, by omega⟩
        rw [runExecute_succ j hseq hstep]
        exact hmore j (Nat.le_of_succ_le_succ hj)

/-- Settles O55: a run that is not out of fuel has ended, and `runEnd` tells how. -/
theorem moreFuelChangesNoEndedRun : Obligations.MoreFuelChangesNoEndedRun := by
  intro s t k j hkj
  rcases runExecute_cases k s with ⟨u, hout⟩ | ⟨u, hend, hmore⟩
  · rw [hout]
    exact ⟨nofun, nofun⟩
  · rw [hend, hmore j hkj]
    refine ⟨fun h => ⟨h, ?_⟩, fun h => ⟨h, ?_⟩⟩
    · exact (runEnd_eq_halted.mp (Host.Outcome.next.inj h)).2
    · exact (runEnd_eq_faulted.mp (Host.Outcome.next.inj h)).2

/-- Where the bytes at `pc` decode, `pc` lies inside the memory image. -/
theorem pc_lt_of_at {s : State} {i : Instr} (h : At s i) : s.pc.toNat < s.params.memorySize := by
  obtain ⟨rest, hd⟩ := h
  by_contra hpast
  rw [fetchWindow_past s (Nat.le_of_not_lt hpast)] at hd
  cases hd

/-- A step at a JMP to its own address changes the latches only (42_control_flow.md R201). -/
theorem step_selfJump {s : State} {t : Addr} (hs : Stepping s) (hat : At s (.jmp t)) (ht : t.toNat = s.pc.toNat) :
    ∃ ir, step s = .next { s with ir := ir } := by
  obtain ⟨-, -, hrun⟩ := id hs
  have hin : t.toNat < s.params.memorySize := by
    rw [ht]
    exact pc_lt_of_at hat
  have hpc : t.setWidth 17 = s.pc := by
    rw [← BitVec.ofNat_toNat, ht, BitVec.ofNat_toNat, BitVec.setWidth_eq]
  obtain ⟨rest, hd⟩ := hat
  obtain ⟨ir, -, hstep⟩ := step_of_decode s (.jmp t) rest hs hd
  have hexec : exec (.jmp t) (fetched s (.jmp t) ir) = .next { s with ir := ir } := by
    refine (checkAddr_ok .jmp t (fetched s (.jmp t) ir) _ hin).trans ?_
    rw [State.pcLoad, hpc]
    rfl
  refine ⟨ir, hstep.trans ((congrArg afterHandler hexec).trans ?_)⟩
  exact congrArg Host.Outcome.next (endIteration_running _ hrun)

/-- Settles O56, by induction on the fuel: the latches are no part of what the next step depends on. -/
theorem selfJumpNeverEnds : Obligations.SelfJumpNeverEnds := by
  intro s t k
  induction k generalizing s with
  | zero => exact fun ⟨_, hseq, _⟩ _ _ => ⟨s.ir, runExecute_zero s hseq⟩
  | succ k ih =>
    intro hs hat ht
    obtain ⟨-, hseq, -⟩ := id hs
    obtain ⟨ir, hstep⟩ := step_selfJump hs hat ht
    obtain ⟨ir', hrun⟩ := ih { s with ir := ir } hs hat ht
    exact ⟨ir', (runExecute_succ k hseq hstep).trans hrun⟩

end Sys2Proof.Machine
end

section
/-! SUPPORT. The canonical form of byte-addressed storage is determined by what it reads (notes/assumptions 19): O57. -/

namespace Sys2Proof.Machine.Memory

/-- The canonical form of a nonempty storage. -/
theorem wf_cons {a : Nat} {v : Byte} {m : Memory} (h : Memory.wf ((a, v) :: m)) :
    v ≠ 0 ∧ (∀ x, x ≤ a → m.read x = 0) ∧ m.wf := by
  obtain ⟨hrise, hne⟩ := h
  obtain ⟨hlow, hrise⟩ := List.pairwise_cons.mp hrise
  exact ⟨hne (a, v) List.mem_cons_self, fun x hx => read_of_lt m x fun c hc => hx.trans_lt (hlow c hc),
    hrise, fun c hc => hne c (List.mem_cons_of_mem _ hc)⟩

theorem read_head (a : Nat) (v : Byte) (m : Memory) : Memory.read ((a, v) :: m) a = v := if_pos rfl

/-- Below its head a canonical storage reads 0. -/
theorem read_below {a x : Nat} {v : Byte} {m : Memory} (h : Memory.wf ((a, v) :: m)) (hx : x < a) :
    Memory.read ((a, v) :: m) x = 0 := by
  obtain ⟨-, htail, -⟩ := wf_cons h
  rw [read_cons, if_neg (by omega)]
  exact htail x hx.le

/-- Canonical storages that read alike begin at the same address: the lower head would read 0 in the other one. -/
theorem head_le_of_read_eq {a b : Nat} {v w : Byte} {m n : Memory} (hm : Memory.wf ((a, v) :: m))
    (hn : Memory.wf ((b, w) :: n)) (h : ∀ x, Memory.read ((a, v) :: m) x = Memory.read ((b, w) :: n) x) : b ≤ a := by
  by_contra hlt
  obtain ⟨hv, -⟩ := wf_cons hm
  exact hv ((read_head a v m).symm.trans ((h a).trans (read_below hn (by omega))))

/-- Canonical storages that read alike are equal. -/
theorem eq_of_read_eq : ∀ m n : Memory, m.wf → n.wf → (∀ a, m.read a = n.read a) → m = n := by
  intro m
  induction m with
  | nil =>
    intro n _ hn h
    cases n with
    | nil => rfl
    | cons c n =>
      obtain ⟨b, w⟩ := c
      exact absurd ((read_head b w n).symm.trans (h b).symm) (wf_cons hn).1
  | cons c m ih =>
    obtain ⟨a, v⟩ := c
    intro n hm hn h
    cases n with
    | nil => exact absurd ((read_head a v m).symm.trans (h a)) (wf_cons hm).1
    | cons d n =>
      obtain ⟨b, w⟩ := d
      obtain rfl : a = b := le_antisymm (head_le_of_read_eq hn hm fun x => (h x).symm) (head_le_of_read_eq hm hn h)
      obtain rfl : v = w := (read_head a v m).symm.trans ((h a).trans (read_head a w n))
      obtain ⟨-, hmtail, hmwf⟩ := wf_cons hm
      obtain ⟨-, hntail, hnwf⟩ := wf_cons hn
      refine congrArg _ (ih n hmwf hnwf fun x => ?_)
      by_cases hx : a = x
      · rw [hmtail x hx.ge, hntail x hx.ge]
      · have hread := h x
        rwa [read_cons, read_cons, if_neg hx, if_neg hx] at hread

/-- Settles O57, by induction on both storages. -/
theorem canonicalStorageIsDeterminedByItsReads : Obligations.CanonicalStorageIsDeterminedByItsReads := eq_of_read_eq

end Sys2Proof.Machine.Memory
end
